-- ==== Sys2Proof/Word.lean ====
section
/-! DEFINITION. Words as the spec's mathematical integers, the address bound of a width, and the longest instruction's cells. -/

namespace Sys2Proof

/-! A WORD (rules R6 and R12 of `00_scope.md`: a cell, a raw value, the relative base, an ALU result, a FIFO datum) is an
`Int` of the model: a value is a mathematical integer, as rule R12 says. Which integers are words depends on the width `W`,
a parameter (`isWord` of `Decode.lean`), and that every operation keeps to them is part of the invariant (`CoreInv`). -/

/-- The address bound `2^(W-1)` of the width `W`: an address is a non-negative word, so it lies below this (rules R8 and
R32). -/
def addressBound (w : Nat) : Nat := 2 ^ (w - 1)

/-- The longest instruction has 1 + 3 cells (rule R90). -/
def maxSize : Nat := 4

end Sys2Proof
end

