-- ==== Sys2Proof/Config.lean ====
section
/-! DEFINITION. The parameters of one implementation (rules R6 to R8 of `00_scope.md`), as plain data. -/

namespace Sys2Proof

/-- `OVERFLOW_MODE` (rule R7): what an addition or product whose exact result is not a word does. -/
inductive OverflowMode where
  /-- the result is the exact one reduced modulo `2^W` into the signed range -/
  | wrap
  /-- the instruction raises `ArithOverflow` -/
  | fault
  deriving DecidableEq, Repr

/-- The implementation parameters a core carries. They are arguments of the model in the spec (decisions D1 to D3), so `State`
holds one `Config` that no step changes, and a statement about every state is a statement about every choice of them (log
entries 1 and 3). `INITIAL_EXTENT` and the image (rules R9 and R11) are arguments of each load, and `IN_DEPTH` and
`OUT_DEPTH` (rule R10) belong to the FIFOs. -/
structure Config where
  /-- `W`, the word width in bits -/
  wordBits     : Nat
  /-- `OVERFLOW_MODE` -/
  overflowMode : OverflowMode
  /-- `MEM_CAPACITY`, the number of addresses memory can hold -/
  memCapacity  : Nat
  deriving DecidableEq, Repr

namespace Config

/-- Rule R6: `W ≥ 52`, since a smaller width contradicts the source. Rule R8: `1 ≤ MEM_CAPACITY ≤ 2^(W-1)`. -/
def legal (c : Config) : Bool :=
  decide (52 ≤ c.wordBits) && decide (1 ≤ c.memCapacity) && decide (c.memCapacity ≤ addressBound c.wordBits)

/-- The spec's `W = 64` (rule R6), its default `OVERFLOW_MODE` (rule R7) and the ideal value of the OPEN `MEM_CAPACITY`
(rule R8). DESIGN CHOICE (log entry 3): that `State.reset` carries these values of the OPEN two. -/
def standard : Config := { wordBits := 64, overflowMode := .wrap, memCapacity := addressBound 64 }

end Config

end Sys2Proof
end

