-- ==== Sys2Proof/Syntax.lean ====
section
/-! DEFINITION. The syntax of Intcode: addressing modes, operands, the ten instructions, the opcode table's rows. -/

namespace Sys2Proof

/-- Addressing modes (rule R97 of `30_encoding.md`). -/
inductive Mode where
  /-- digit 0: the raw value is an address -/
  | position
  /-- digit 1: the raw value is the value -/
  | immediate
  /-- digit 2: the raw value is an offset from the relative base -/
  | relative
  deriving DecidableEq, Repr

/-- An operand, the source's "Param": a (raw value, addressing mode) pair (glossary of `00_scope.md`). -/
structure Param where
  mode : Mode
  raw  : Int
  deriving DecidableEq, Repr

/-- Operand roles (rule R95): `read` uses the operand's value, `dest` writes the cell it names. -/
inductive Role where
  | read
  | dest
  deriving DecidableEq, Repr

/-- The instruction set: one constructor per row of `opcode_table.json` (rule R94), operands in cell order. -/
inductive Instr where
  /-- `ADD`, opcode 1 -/
  | add (a b d : Param)
  /-- `MUL`, opcode 2 -/
  | mul (a b d : Param)
  /-- `IN`, opcode 3 -/
  | input (d : Param)
  /-- `OUT`, opcode 4 -/
  | output (a : Param)
  /-- `JT`, opcode 5 -/
  | jt (a b : Param)
  /-- `JF`, opcode 6 -/
  | jf (a b : Param)
  /-- `LT`, opcode 7 -/
  | lt (a b d : Param)
  /-- `EQ`, opcode 8 -/
  | eq (a b d : Param)
  /-- `ARB`, opcode 9 -/
  | arb (a : Param)
  /-- `HLT`, opcode 99 -/
  | hlt
  deriving DecidableEq, Repr

namespace Instr

/-- The opcode (rule R94). -/
def opcode : Instr → Nat
  | .add _ _ _  => 1
  | .mul _ _ _  => 2
  | .input _    => 3
  | .output _   => 4
  | .jt _ _     => 5
  | .jf _ _     => 6
  | .lt _ _ _   => 7
  | .eq _ _ _   => 8
  | .arb _      => 9
  | .hlt        => 99

/-- The operands with their roles, in cell order (rules R94 and R95). -/
def operands : Instr → List (Role × Param)
  | .add a b d  => [(.read, a), (.read, b), (.dest, d)]
  | .mul a b d  => [(.read, a), (.read, b), (.dest, d)]
  | .input d    => [(.dest, d)]
  | .output a   => [(.read, a)]
  | .jt a b     => [(.read, a), (.read, b)]
  | .jf a b     => [(.read, a), (.read, b)]
  | .lt a b d   => [(.read, a), (.read, b), (.dest, d)]
  | .eq a b d   => [(.read, a), (.read, b), (.dest, d)]
  | .arb a      => [(.read, a)]
  | .hlt        => []

/-- `size = n + 1` cells (rule R90). -/
def size (i : Instr) : Nat := i.operands.length + 1

/-- The mnemonic (rule R110). -/
def mnemonic : Instr → String
  | .add _ _ _  => "ADD"
  | .mul _ _ _  => "MUL"
  | .input _    => "IN"
  | .output _   => "OUT"
  | .jt _ _     => "JT"
  | .jf _ _     => "JF"
  | .lt _ _ _   => "LT"
  | .eq _ _ _   => "EQ"
  | .arb _      => "ARB"
  | .hlt        => "HLT"

end Instr

/-- One row of `opcode_table.json` (rule R113): an instruction word `w` selects the row when `w ≥ 0` and
`w mod mask = match` (here `code`). -/
structure OpcodeRow where
  mnemonic : String
  code     : Nat
  mask     : Nat
  roles    : List Role
  deriving DecidableEq, Repr

/-- The opcode table (rules R94 and R113), rows in the table's order. -/
def opcodeTable : List OpcodeRow :=
  [ ⟨"ADD", 1, 100, [.read, .read, .dest]⟩,
    ⟨"MUL", 2, 100, [.read, .read, .dest]⟩,
    ⟨"IN", 3, 100, [.dest]⟩,
    ⟨"OUT", 4, 100, [.read]⟩,
    ⟨"JT", 5, 100, [.read, .read]⟩,
    ⟨"JF", 6, 100, [.read, .read]⟩,
    ⟨"LT", 7, 100, [.read, .read, .dest]⟩,
    ⟨"EQ", 8, 100, [.read, .read, .dest]⟩,
    ⟨"ARB", 9, 100, [.read]⟩,
    ⟨"HLT", 99, 100, []⟩ ]

end Sys2Proof
end

