-- ==== Sys2Proof/WellFormed.lean ====
section
/-! DEFINITION. Which instructions the decoder can give (the decode-time operand checks of rule R103). -/

namespace Sys2Proof

namespace Param

/-- A Position operand's raw value is an address, so it is not negative (rules R98, R99 and R103). -/
def positionOk (p : Param) : Bool := !(decide (p.mode = .position) && decide (p.raw < 0))

/-- A destination is not an Immediate (rules R99 and R103). -/
def destOk (r : Role) (p : Param) : Bool := !(decide (r = .dest) && decide (p.mode = .immediate))

/-- An operand in its role passes every decode-time check. -/
def wellFormed (r : Role) (p : Param) : Bool := p.positionOk && p.destOk r

end Param

/-- Every operand passes the decode-time checks of rule R103. The mode digit check of that rule is carried by the type
`Mode`, which has no fourth value. -/
def Instr.wellFormed (i : Instr) : Bool := i.operands.all fun o => o.2.wellFormed o.1

end Sys2Proof
end

