-- ==== Sys2Proof/Decode.lean ====
section
/-! DEFINITION. The decoder, total on any slice of memory and rejecting by name, and after it the encoder. -/

namespace Sys2Proof

/-! ## Words of a width (rule R12) -/

/-- `x` is a word of the width `w`: it lies in `[-2^(W-1), 2^(W-1) - 1]`. -/
def isWord (w : Nat) (x : Int) : Bool := decide (-(addressBound w : Int) ≤ x) && decide (x ≤ (addressBound w : Int) - 1)

/-- `wrapW(x)`, the word of the width `w` congruent to `x` modulo `2^W`. -/
def wrapW (w : Nat) (x : Int) : Int := x.bmod (2 ^ w)

/-! ## Decimal fields (rules R15, R91, R92) -/

/-- `digit(w, k)`, digit `k` of `w` counted from the least significant digit 0 (rule R15). -/
def digit (w k : Nat) : Nat := w / 10 ^ k % 10

/-- `op = w mod 100` (rule R91). -/
def opcodeOf (w : Nat) : Nat := w % 100

/-- The mode a mode digit names (rule R97). A digit of 3 to 9 names none. -/
def modeOfDigit : Nat → Option Mode
  | 0 => some .position
  | 1 => some .immediate
  | 2 => some .relative
  | _ => none

/-- Why the decoder rejects a slice. Each becomes the fault cause of the same name (rules R301 to R306). -/
inductive DecodeError where
  /-- too few cells remain: `needed` are needed (rules R102 and R301) -/
  | missingParams (needed : Nat)
  /-- no opcode of the table: the recorded opcode value (rules R101 and R302) -/
  | invalidOpcode (value : Int)
  /-- operand `i` has the mode digit `value`, 3 to 9 (rules R103 and R305) -/
  | invalidMode (i : Fin 4) (value : Nat)
  /-- Position operand `i` has a negative raw value (rules R103 and R303) -/
  | negativePositionalParam (i : Fin 4) (raw : Int)
  /-- destination operand `i` is an Immediate (rules R103 and R306) -/
  | immediateDestination (i : Fin 4) (raw : Int)
  deriving DecidableEq, Repr

/-- Operand `i` of the instruction word `w`, with the checks of rule R103 in their order: the mode digit, the sign of a
Position raw value, the mode of a destination. -/
def decodeOperand (w : Nat) (i : Fin 4) (role : Role) (raw : Int) : Except DecodeError Param :=
  match modeOfDigit (digit w (i.val + 1)) with
  | none => .error (.invalidMode i (digit w (i.val + 1)))
  | some m =>
    if m = .position ∧ raw < 0 then .error (.negativePositionalParam i raw)
    else if role = .dest ∧ m = .immediate then .error (.immediateDestination i raw)
    else .ok ⟨m, raw⟩

/-! ## Formats (rule R96): `w` is the instruction word, `rest` the cells after it. -/

/-- Format `R` of two cells, for `OUT` and `ARB`. -/
def formatR (mk : Param → Instr) (w : Nat) (rest : List Int) : Except DecodeError Instr :=
  match rest with
  | r1 :: _ => do
    let a ← decodeOperand w 1 .read r1
    pure (mk a)
  | _ => .error (.missingParams 2)

/-- Format `D` of two cells, for `IN`. -/
def formatD (mk : Param → Instr) (w : Nat) (rest : List Int) : Except DecodeError Instr :=
  match rest with
  | r1 :: _ => do
    let d ← decodeOperand w 1 .dest r1
    pure (mk d)
  | _ => .error (.missingParams 2)

/-- Format `RR` of three cells, for `JT` and `JF`. -/
def formatRR (mk : Param → Param → Instr) (w : Nat) (rest : List Int) : Except DecodeError Instr :=
  match rest with
  | r1 :: r2 :: _ => do
    let a ← decodeOperand w 1 .read r1
    let b ← decodeOperand w 2 .read r2
    pure (mk a b)
  | _ => .error (.missingParams 3)

/-- Format `RRD` of four cells, for `ADD`, `MUL`, `LT` and `EQ`. -/
def formatRRD (mk : Param → Param → Param → Instr) (w : Nat) (rest : List Int) : Except DecodeError Instr :=
  match rest with
  | r1 :: r2 :: r3 :: _ => do
    let a ← decodeOperand w 1 .read r1
    let b ← decodeOperand w 2 .read r2
    let d ← decodeOperand w 3 .dest r3
    pure (mk a b d)
  | _ => .error (.missingParams 4)

/-- A non-negative instruction word: the opcode selects the format (rules R94 and R96); every other opcode is illegal and
its value is recorded (rule R101). Digits above the used mode digits are never looked at (rule R93). -/
def decodeWord (w : Nat) (rest : List Int) : Except DecodeError Instr :=
  match opcodeOf w with
  | 1 => formatRRD .add w rest
  | 2 => formatRRD .mul w rest
  | 3 => formatD .input w rest
  | 4 => formatR .output w rest
  | 5 => formatRR .jt w rest
  | 6 => formatRR .jf w rest
  | 7 => formatRRD .lt w rest
  | 8 => formatRRD .eq w rest
  | 9 => formatR .arb w rest
  | 99 => .ok .hlt
  | op => .error (.invalidOpcode op)

/-- The decoder: "given a slice of Memory starting at pc", the instruction it begins with or a named rejection, in the
order of rules R100 and R310: an empty slice, a negative word (recorded as `trem(w, 100)`, rule R101), an illegal opcode,
too few operand cells, then the operands in turn. -/
def decode (cells : List Int) : Except DecodeError Instr :=
  match cells with
  | [] => .error (.missingParams 1)
  | w :: rest =>
    if w < 0 then .error (.invalidOpcode (w.tmod 100))
    else decodeWord w.toNat rest

/-! ## The encoder (rule R109) -/

/-- The digit of a mode (rule R97). -/
def Mode.digit : Mode → Nat
  | .position  => 0
  | .immediate => 1
  | .relative  => 2

/-- The operands' mode digits, operand 1 least significant (rule R92). -/
def modeDigits : List Param → Nat
  | [] => 0
  | p :: ps => p.mode.digit + 10 * modeDigits ps

/-- `w = op + 100·m1 + 1000·m2 + 10000·m3`, the modes an opcode does not use 0 (rule R109). -/
def Instr.word (i : Instr) : Nat := i.opcode + 100 * modeDigits (i.operands.map (·.2))

/-- The canonical encoding: the instruction word, then the raw values (rule R109). -/
def encode (i : Instr) : List Int := (i.word : Int) :: i.operands.map (·.2.raw)

/-! ## Instructions as one number, for the host's opcode table -/

/-- The cells of width `width` of an instruction given as one number: bit 0 is the least significant bit of the first cell, the
next cell's bits count on from it, and the bits from `nbits` up are 0. A cell has no byte order (rule R61; log entry 13). -/
def tableCells (width nbits w : Nat) : List Int :=
  (List.range maxSize).map fun k => wrapW width (w % 2 ^ nbits / 2 ^ (width * k) : Nat)

/-- What the decoder reads from an instruction given as one number of cells of the spec's width. -/
def decodeTableWord (nbits w : Nat) : Option Instr :=
  match decode (tableCells Config.standard.wordBits nbits w) with
  | .ok i => some i
  | .error _ => none

end Sys2Proof
end

