-- ==== Sys2Proof/Machine/State.lean ====
section
/-! DEFINITION. The state of one core with its two FIFOs, as plain data; the reasons a step could stop; the state after reset. -/

namespace Sys2Proof.Machine

/-- The run state `RS` (rule R38 of `10_state.md`). -/
inductive RunState where
  /-- code 0: the controller attempts the instruction at `pc` -/
  | running
  /-- code 1: an `IN` found its input FIFO empty and open -/
  | waitIn
  /-- code 2: an `OUT` found its output FIFO full and its consumer alive -/
  | waitOut
  /-- code 3, terminal: `HLT` executed -/
  | halted
  /-- code 4, terminal: a step raised a fault -/
  | faulted
  /-- code 5, terminal: an `IN` found its input FIFO empty and closed -/
  | inputEnded
  deriving DecidableEq, Repr

/-- The fault causes (rule R300 of `60_exceptions.md`), in the order of their codes 1 to 9. -/
inductive Cause where
  | missingParams
  | invalidOpcode
  | negativePositionalParam
  | invalidAddress
  | invalidMode
  | immediateDestination
  | negativeJumpTarget
  | capacityExceeded
  | arithOverflow
  deriving DecidableEq, Repr

/-- A FIFO (rule R152 of `41_io.md`): the queue, oldest value first, the producer's `closed` flag, the consumer's
`consumer_alive` flag, and its depth (`IN_DEPTH` or `OUT_DEPTH`, rule R10). -/
structure Fifo where
  depth         : Nat
  q             : List Int
  closed        : Bool
  consumerAlive : Bool
  deriving DecidableEq, Repr

/-- A memory cell: an address and its word. The unit of addressing is the cell and nothing names a byte (rule R61), so a
cell holds a whole word (log entry 2). -/
abbrev Cell := Nat × Int

/-- Memory: the cells that do not hold 0, addresses strictly rising. A cell that is not listed holds 0 (rules R36, R63). -/
abbrev Mem := List Cell

/-- The state of one core (rule R30), the two FIFOs it holds an endpoint of (rule R43), the output port's `out_drop`
signal (rule R151) and the implementation's parameters. `STATUS` (rule R40) is a view of `rs`, `cause` and `opidx`
(`State.status`). -/
structure State where
  /-- the implementation's parameters, which no step changes (log entries 1 and 3) -/
  cfg        : Config
  /-- `M` (rule R36) -/
  mem        : Mem
  /-- `L`, the extent (rule R37) -/
  extent     : Nat
  /-- `pc`, an unsigned address (rule R32) -/
  pc         : Nat
  /-- `rb`, the relative base, signed (rules R34 and R35) -/
  rb         : Int
  /-- `RS` (rule R38), which is `STATUS.RUN` -/
  rs         : RunState
  /-- `STATUS.CAUSE` (rule R40), `none` for code 0 -/
  cause      : Option Cause
  /-- `STATUS.OPIDX` (rule R40) -/
  opidx      : Fin 4
  /-- `FAULT_PC` (rule R41) -/
  faultPc    : Nat
  /-- `FAULT_VALUE` (rule R41) -/
  faultValue : Int
  /-- the FIFO of `in_ep`: the core is its consumer -/
  inp        : Fifo
  /-- the FIFO of `out_ep`: the core is its producer -/
  out        : Fifo
  /-- `out_drop`: the value the last step's `OUT` reported because its consumer was gone (rules R151 and R157) -/
  outDrop    : Option Int
  deriving DecidableEq, Repr

/-- The reasons a step could stop outside the spec. There are NONE: every fault the spec names is a next state with
`RS = FAULTED` (rule R311), a terminal core is a next state that does not change (rule R39), and no rule leaves an
instruction without an effect, so nothing raises a `Fault` (safe: there is no value of this type). -/
inductive Fault where
  deriving DecidableEq, Repr

/-- The reasons an instruction could have no meaning in the model. -/
inductive Refusal where
  /-- an arm of `exec` whose instruction has no meaning yet; none is left, so nothing raises it (safe) -/
  | notModelled (mnemonic : String)
  deriving DecidableEq, Repr

/-- An open, empty FIFO with its consumer alive. -/
def Fifo.fresh (depth : Nat) : Fifo := { depth := depth, q := [], closed := false, consumerAlive := true }

/-- Right after the reset that loads the empty image (rules R47 and R400), `P = 0` and `L = INITIAL_EXTENT(0) = 0`.
DESIGN CHOICE: the OPEN parameters (log entry 3) and the two FIFOs the environment connects, fresh and of depth 1
(log entry 5). -/
def State.reset : State :=
  { cfg := Config.standard
    mem := []
    extent := 0
    pc := 0
    rb := 0
    rs := .running
    cause := none
    opidx := 0
    faultPc := 0
    faultValue := 0
    inp := Fifo.fresh 1
    out := Fifo.fresh 1
    outDrop := none }

end Sys2Proof.Machine
end

