-- ==== Sys2Proof/Machine/Ops.lean ====
section
/-! DEFINITION. The named operations: memory, FIFOs, retiring, waiting, ending, taking a fault, fetching. -/

namespace Sys2Proof.Machine

/-! ## Memory (rules R36, R37, R63 to R65) -/

namespace Mem

/-- The word of a cell: the listed one, 0 where none is listed (rule R36). -/
def get (m : Mem) (a : Nat) : Int :=
  match m with
  | [] => 0
  | (b, v) :: t => if b = a then v else get t a

/-- Set one cell, keeping addresses strictly rising and no 0 listed. -/
def set (m : Mem) (a : Nat) (v : Int) : Mem :=
  match m with
  | [] => if v = 0 then [] else [(a, v)]
  | (b, w) :: t =>
    if a < b then (if v = 0 then (b, w) :: t else (a, v) :: (b, w) :: t)
    else if a = b then (if v = 0 then t else (a, v) :: t)
    else (b, w) :: set t a v

/-- Every listed address is at least `n`, addresses rise strictly, no listed word is 0. -/
def wfFrom (m : Mem) (n : Nat) : Bool :=
  match m with
  | [] => true
  | (a, v) :: t => decide (n ≤ a) && decide (v ≠ 0) && wfFrom t (a + 1)

/-- The canonical form: addresses strictly rising, no entry equal to what an unlisted address reads as. -/
def wf (m : Mem) : Bool := m.wfFrom 0

/-- Every listed cell holds a word of the width `w`. -/
def words (m : Mem) (w : Nat) : Bool := m.all fun c => isWord w c.2

/-- Every listed address is below `n`. -/
def below (m : Mem) (n : Nat) : Bool := m.all fun c => decide (c.1 < n)

/-- The memory whose cells `a, a+1, …` are the words of a list, all others 0. -/
def ofWords (a : Nat) (ws : List Int) : Mem :=
  match ws with
  | [] => []
  | w :: t => if w = 0 then ofWords (a + 1) t else (a, w) :: ofWords (a + 1) t

end Mem

namespace State

/-- `MemRead(a, 1)` (rule R63): `M[a]` below the extent, 0 at or above it. -/
def memRead (s : State) (a : Nat) : Int := if a < s.extent then s.mem.get a else 0

/-- `MemWrite(a, 1, v)` (rule R64): memory grows to hold cell `a`, then the cell is written. -/
def memWrite (s : State) (a : Nat) (v : Int) : State :=
  { s with mem := s.mem.set a v, extent := if s.extent ≤ a then a + 1 else s.extent }

end State

/-! ## FIFOs (rule R152) -/

namespace Fifo

/-- `nonempty`: at least one value is queued (rule R150). -/
def nonempty (f : Fifo) : Bool := !f.q.isEmpty

/-- `full`: the queue holds `depth` values (rule R151). -/
def full (f : Fifo) : Bool := decide (f.depth ≤ f.q.length)

/-- push, by the producer. -/
def push (f : Fifo) (v : Int) : Fifo := { f with q := f.q ++ [v] }

/-- The queue after a pop, by the consumer. -/
def pop (f : Fifo) : Fifo := { f with q := f.q.tail }

/-- close, by the producer: never cleared. -/
def close (f : Fifo) : Fifo := { f with closed := true }

/-- abandon, by the consumer: never set again. Queued values stay and are never delivered (log entry 17). -/
def abandon (f : Fifo) : Fifo := { f with consumerAlive := false }

/-- The depth is at least 1 and the queue is no longer than it and holds words of the width `w` (rules R6, R10 and R152). -/
def legal (f : Fifo) (w : Nat) : Bool := decide (1 ≤ f.depth) && decide (f.q.length ≤ f.depth) && f.q.all (isWord w)

end Fifo

/-! ## How a step ends (rule R16) -/

/-- The terminal run states (rule R38). -/
def RunState.terminal : RunState → Bool
  | .running => false
  | .waitIn => false
  | .waitOut => false
  | .halted => true
  | .faulted => true
  | .inputEnded => true

/-- The wait states (rule R38). -/
def RunState.waiting : RunState → Bool
  | .running => false
  | .waitIn => true
  | .waitOut => true
  | .halted => false
  | .faulted => false
  | .inputEnded => false

/-- `raise C(i, v)` (rule R14): a cause, an operand index (0 for the instruction word) and a recorded value. -/
structure Raise where
  cause : Cause
  opidx : Fin 4
  value : Int
  deriving DecidableEq, Repr

/-- The fault a decoder rejection raises (rules R301, R302, R303, R305, R306). -/
def Raise.ofDecode : DecodeError → Raise
  | .missingParams n             => ⟨.missingParams, 0, n⟩
  | .invalidOpcode v             => ⟨.invalidOpcode, 0, v⟩
  | .invalidMode i d             => ⟨.invalidMode, i, d⟩
  | .negativePositionalParam i r => ⟨.negativePositionalParam, i, r⟩
  | .immediateDestination i r    => ⟨.immediateDestination, i, r⟩

namespace State

/-- Entering a terminal state closes the output FIFO and abandons the input FIFO in the same step (rule R159). -/
def terminate (s : State) (rs : RunState) : State :=
  { s with rs := rs, out := s.out.close, inp := s.inp.abandon }

/-- TAKING A FAULT (rule R311): the run state, the fault report and the closure change, nothing else does. -/
def raise (s : State) (r : Raise) : State :=
  { s.terminate .faulted with cause := some r.cause, opidx := r.opidx, faultPc := s.pc, faultValue := r.value }

/-- The end of a retiring instruction that is no taken jump: `pc <- pc + size; RS <- RUNNING` (rules R33 and R105). -/
def retire (s : State) (size : Nat) : State := { s with pc := s.pc + size, rs := .running }

/-- The end of a taken jump: `pc <- target; RS <- RUNNING` (rules R33, R105 and R182). -/
def jumpTo (s : State) (target : Nat) : State := { s with pc := target, rs := .running }

/-- The end of a waiting step: only `RS` changes (rule R158). -/
def wait (s : State) (rs : RunState) : State := { s with rs := rs }

/-- What a meaning answers: the state its execute rule reaches, or the state after the fault it raises. -/
def settle (s : State) (r : Except Raise State) : Host.Outcome State Fault Refusal :=
  match r with
  | .ok t => .next t
  | .error e => .next (s.raise e)

/-- The start of a step: `out_drop` is a signal of one step, so the last step's is gone (rule R151; log entry 6). -/
def beginStep (s : State) : State := { s with outDrop := none }

/-- The cells the decoder is given: the `L - pc` cells that remain at `pc`, at most the longest instruction's four
(rules R90, R100 and R102). -/
def fetchCells (s : State) : List Int :=
  (List.range (min maxSize (s.extent - s.pc))).map fun k => s.memRead (s.pc + k)

end State

end Sys2Proof.Machine
end

