-- ==== Sys2Proof/Machine/Flags.lean ====
section
/-! DEFINITION. The ALU with its overflow rule, the comparison results, and the status register. The core has no flags
(rule R44): a comparison's result is a word, and an overflow is a fault or nothing. -/

namespace Sys2Proof.Machine

/-! ## Arithmetic (rules R13 and R142) -/

/-- An exact result made a word as `OVERFLOW_MODE` says (rules R7 and R13): `none` where it raises `ArithOverflow`. -/
def narrow (c : Config) (x : Int) : Option Int :=
  match c.overflowMode with
  | .wrap => some (wrapW c.wordBits x)
  | .fault => if isWord c.wordBits x then some x else none

/-- `AddW(a, b)` (rule R13). -/
def addW (c : Config) (a b : Int) : Option Int := narrow c (a + b)

/-- `MulW(a, b)` (rule R13). -/
def mulW (c : Config) (a b : Int) : Option Int := narrow c (a * b)

/-- A sum or product, or the `ArithOverflow` raised in its place with operand index `i` and recorded value `v`
(rule R309). -/
def orOverflow (r : Option Int) (i : Fin 4) (v : Int) : Except Raise Int :=
  match r with
  | some x => .ok x
  | none => .error ⟨.arithOverflow, i, v⟩

/-! ## Comparison results (rules R44, R190 and R191) -/

/-- A comparison's result word: 1 for true, 0 for false. -/
def truthWord (b : Bool) : Int := if b then 1 else 0

/-- `a < b`, signed (rules R13 and R190). -/
def lessThan (a b : Int) : Int := truthWord (decide (a < b))

/-- `a = b`, of full words (rules R13 and R191). -/
def equals (a b : Int) : Int := truthWord (decide (a = b))

/-! ## The status register (rules R38, R40 and R300) -/

/-- The code of a run state (rule R38). -/
def RunState.code : RunState → Nat
  | .running => 0
  | .waitIn => 1
  | .waitOut => 2
  | .halted => 3
  | .faulted => 4
  | .inputEnded => 5

/-- The code of a fault cause (rule R300). -/
def Cause.code : Cause → Nat
  | .missingParams => 1
  | .invalidOpcode => 2
  | .negativePositionalParam => 3
  | .invalidAddress => 4
  | .invalidMode => 5
  | .immediateDestination => 6
  | .negativeJumpTarget => 7
  | .capacityExceeded => 8
  | .arithOverflow => 9

/-- `CAUSE`, 0 for none (rule R40). -/
def causeCode : Option Cause → Nat
  | none => 0
  | some c => c.code

namespace State

/-- `STATUS` (rule R40), a 64-bit word whatever `W` is: `RUN` in bits 2:0, `CAUSE` in bits 11:8, `OPIDX` in bits 13:12,
every other bit 0. -/
def status (s : State) : BitVec 64 :=
  BitVec.ofNat 64 (s.rs.code + 2 ^ 8 * causeCode s.cause + 2 ^ 12 * s.opidx.val)

end State

/-- `STATUS.RUN`, bits 2:0. -/
def statusRun (w : BitVec 64) : BitVec 3 := w.extractLsb' 0 3

/-- `STATUS.CAUSE`, bits 11:8. -/
def statusCause (w : BitVec 64) : BitVec 4 := w.extractLsb' 8 4

/-- `STATUS.OPIDX`, bits 13:12. -/
def statusOpidx (w : BitVec 64) : BitVec 2 := w.extractLsb' 12 2

end Sys2Proof.Machine
end

