-- ==== Sys2Proof/Machine/Operands.lean ====
section
/-! DEFINITION. The addressing-mode resolver (rules R98, R99 and R104): every operand form, read and destination. -/

namespace Sys2Proof.Machine

namespace State

/-- The address `r` of a Position operand `i`, which must not be negative (rules R98, R99 and R103). The decoder has
checked it already; the check stands here too so that a resolver given any operand answers as rules R98 and R99 say (log entry 12). -/
def positionAddress (i : Fin 4) (raw : Int) : Except Raise Nat :=
  if raw < 0 then .error ⟨.negativePositionalParam, i, raw⟩ else .ok raw.toNat

/-- The address `AddW(rb, r)` of a Relative operand `i`: with `OVERFLOW_MODE = fault` a sum that is not a word raises
`ArithOverflow(i, r)`, and a negative sum raises `InvalidAddress(i, sum)` (rules R98, R99, R104, R304 and R309). -/
def relativeAddress (s : State) (i : Fin 4) (raw : Int) : Except Raise Nat := do
  let ea ← orOverflow (addW s.cfg s.rb raw) i raw
  if ea < 0 then .error ⟨.invalidAddress, i, ea⟩ else .ok ea.toNat

/-- The read value of operand `i` (rule R98). -/
def readOperand (s : State) (i : Fin 4) (p : Param) : Except Raise Int :=
  match p.mode with
  | .position => do
    let ea ← positionAddress i p.raw
    pure (s.memRead ea)
  | .immediate => .ok p.raw
  | .relative => do
    let ea ← s.relativeAddress i p.raw
    pure (s.memRead ea)

/-- A destination address must lie below `MEM_CAPACITY` (rules R104 and R308). -/
def withinCapacity (s : State) (i : Fin 4) (ea : Nat) : Except Raise Nat :=
  if s.cfg.memCapacity ≤ ea then .error ⟨.capacityExceeded, i, ea⟩ else .ok ea

/-- The address of destination operand `i` (rule R99). -/
def destAddress (s : State) (i : Fin 4) (p : Param) : Except Raise Nat :=
  match p.mode with
  | .position => do
    let ea ← positionAddress i p.raw
    s.withinCapacity i ea
  | .immediate => .error ⟨.immediateDestination, i, p.raw⟩
  | .relative => do
    let ea ← s.relativeAddress i p.raw
    s.withinCapacity i ea

end State

/-- A three-operand instruction of format `RRD` (rule R100): the operands are resolved in order, both values before the
write, then the result, which may raise, is written and the instruction retires. -/
def execRRD (op : Int → Int → Except Raise Int) (a b d : Param) (s : State) : Host.Outcome State Fault Refusal :=
  s.settle do
    let x ← s.readOperand 1 a
    let y ← s.readOperand 2 b
    let dst ← s.destAddress 3 d
    let r ← op x y
    pure ((s.memWrite dst r).retire 4)

/-- A conditional jump of format `RR` (rules R180 to R182): both operands are resolved whether it is taken or not, and a
taken jump to a negative target raises `NegativeJumpTarget(2, b)`. -/
def execJump (taken : Int → Bool) (a b : Param) (s : State) : Host.Outcome State Fault Refusal :=
  s.settle do
    let x ← s.readOperand 1 a
    let y ← s.readOperand 2 b
    if taken x then
      if y < 0 then .error ⟨.negativeJumpTarget, 2, y⟩ else pure (s.jumpTo y.toNat)
    else pure (s.retire 3)

end Sys2Proof.Machine
end

