-- ==== Sys2Proof/Machine/Arith.lean ====
section
/-! DEFINITION. `ADD` and `MUL` (`40_arith.md`). -/

namespace Sys2Proof.Machine

/-- `ADD` (rule R140): `dst <- AddW(a, b)`; overflow raises `ArithOverflow(0, 1)`. -/
def execAdd (a b d : Param) (s : State) : Host.Outcome State Fault Refusal :=
  execRRD (fun x y => orOverflow (addW s.cfg x y) 0 1) a b d s

/-- `MUL` (rule R141): `dst <- MulW(a, b)`; overflow raises `ArithOverflow(0, 2)`. -/
def execMul (a b d : Param) (s : State) : Host.Outcome State Fault Refusal :=
  execRRD (fun x y => orOverflow (mulW s.cfg x y) 0 2) a b d s

end Sys2Proof.Machine
end

