-- ==== Sys2Proof/Machine/BaseHalt.lean ====
section
/-! DEFINITION. `ARB` and `HLT` (`44_base_halt.md`). -/

namespace Sys2Proof.Machine

/-- `ARB` (rule R200): `rb <- AddW(rb, a)`, a Relative `a` read at the old `rb`; overflow raises `ArithOverflow(0, 9)`. -/
def execArb (a : Param) (s : State) : Host.Outcome State Fault Refusal :=
  s.settle do
    let x ← s.readOperand 1 a
    let r ← orOverflow (addW s.cfg s.rb x) 0 9
    pure ({ s with rb := r }.retire 2)

/-- `HLT` (rule R201): `RS <- HALTED` with the closure of rule R159; `pc` stays at the `HLT`. -/
def execHlt (s : State) : Host.Outcome State Fault Refusal := .next (s.terminate .halted)

end Sys2Proof.Machine
end

