-- ==== Sys2Proof/Machine/Compare.lean ====
section
/-! DEFINITION. `LT` and `EQ` (`43_compare.md`). -/

namespace Sys2Proof.Machine

/-- `LT` (rule R190): `dst <- (a < b) ? 1 : 0`, signed. -/
def execLt (a b d : Param) (s : State) : Host.Outcome State Fault Refusal :=
  execRRD (fun x y => .ok (lessThan x y)) a b d s

/-- `EQ` (rule R191): `dst <- (a = b) ? 1 : 0`. -/
def execEq (a b d : Param) (s : State) : Host.Outcome State Fault Refusal :=
  execRRD (fun x y => .ok (equals x y)) a b d s

end Sys2Proof.Machine
end

