-- ==== Sys2Proof/Machine/Io.lean ====
section
/-! DEFINITION. `IN` and `OUT` (`41_io.md`). -/

namespace Sys2Proof.Machine

/-- `IN` (rule R156): the destination is resolved before the FIFO is examined. A queued value is popped and written; an
empty closed FIFO ends the run; an empty open one makes the step wait. -/
def execIn (d : Param) (s : State) : Host.Outcome State Fault Refusal :=
  s.settle do
    let dst ← s.destAddress 1 d
    match s.inp.q with
    | v :: _ => pure (({ s with inp := s.inp.pop }.memWrite dst v).retire 2)
    | [] => pure (if s.inp.closed then s.terminate .inputEnded else s.wait .waitIn)

/-- `OUT` (rule R157): to a consumer that is gone the value goes to `out_drop` and is not queued; to a FIFO with room it
is pushed; a full FIFO makes the step wait. -/
def execOut (a : Param) (s : State) : Host.Outcome State Fault Refusal :=
  s.settle do
    let v ← s.readOperand 1 a
    pure (if s.out.consumerAlive then
            if s.out.full then s.wait .waitOut else { s with out := s.out.push v }.retire 2
          else { s with outDrop := some v }.retire 2)

end Sys2Proof.Machine
end

