-- ==== Sys2Proof/Machine/Jump.lean ====
section
/-! DEFINITION. `JT` and `JF` (`42_jump.md`). -/

namespace Sys2Proof.Machine

/-- `JT` (rule R180): taken when `a ≠ 0`. -/
def execJt (a b : Param) (s : State) : Host.Outcome State Fault Refusal :=
  execJump (fun x => decide (x ≠ 0)) a b s

/-- `JF` (rule R181): taken when `a = 0`. -/
def execJf (a b : Param) (s : State) : Host.Outcome State Fault Refusal :=
  execJump (fun x => decide (x = 0)) a b s

end Sys2Proof.Machine
end

