-- ==== Sys2Proof/Machine/Step.lean ====
section
/-! DEFINITION. The controller's step (rule R100), and how the host places one instruction where the step fetches. -/

namespace Sys2Proof.Machine

/-- One attempt at the instruction at `pc` (rules R16 and R100): fetch and decode afresh from memory (rule R107), raise what the
decoder rejects, else run the instruction. No step runs in a terminal state (rules R39 and R313): the state stays as it is
(log entry 7). -/
def step (s : State) : Host.Outcome State Fault Refusal :=
  if s.rs.terminal then .next s
  else
    match decode s.fetchCells with
    | .error e => .next (s.beginStep.raise (Raise.ofDecode e))
    | .ok i => exec i s.beginStep

/-- Words written to consecutive cells. -/
def State.placeCells (s : State) (a : Nat) (ws : List Int) : State :=
  match ws with
  | [] => s
  | w :: t => (s.memWrite a w).placeCells (a + 1) t

/-- `s` with one instruction, given as one number (`tableCells`), in the four cells at `pc`, the extent grown to hold them
(an instruction that does not lie below the extent is `MissingParams`, rule R102), and a terminal run state released, since
no step runs in one (log entry 8). -/
def State.withFetchWord (s : State) (nbits w : Nat) : State :=
  { s.placeCells s.pc (tableCells s.cfg.wordBits nbits w) with rs := if s.rs.terminal then .running else s.rs }

end Sys2Proof.Machine
end

