-- ==== Sys2Proof/Machine/Ports.lean ====
section
/-! DEFINITION. The block's ports (rule R412): load and release (rules R400 to R402), the environment's side of the two FIFOs
(rules R152 and R155), the status port (rules R40, R41 and R316) and the dump port (rule R77). -/

namespace Sys2Proof.Machine

/-! ## The load port and release -/

/-- What the environment applies at the load port (rule R400): the image as integers, the value of `INITIAL_EXTENT(P)` for
this load (rule R9), and the FIFOs to connect. -/
structure LoadRequest where
  image    : List Int
  extent   : Nat
  inFifo   : Fifo
  outFifo  : Fifo
  deriving DecidableEq, Repr

/-- Rule R401: every image value is a word and `P ≤ MEM_CAPACITY`. -/
def LoadRequest.accepted (r : LoadRequest) (c : Config) : Bool :=
  r.image.all (isWord c.wordBits) && decide (r.image.length ≤ c.memCapacity)

/-- Rule R9: `P ≤ INITIAL_EXTENT(P) ≤ MEM_CAPACITY` (log entry 18). -/
def LoadRequest.extentOk (r : LoadRequest) (c : Config) : Bool :=
  decide (r.image.length ≤ r.extent) && decide (r.extent ≤ c.memCapacity)

/-- A FIFO as the environment creates it at connection (rule R152): up to its depth of words queued, closed or open, and its
consumer alive. -/
def Fifo.connectable (f : Fifo) (w : Nat) : Bool := f.legal w && f.consumerAlive

/-- What the environment may ask of an implementation with these parameters: an extent of rule R9 and FIFOs of rule R152. -/
def LoadRequest.legal (r : LoadRequest) (c : Config) : Bool :=
  r.extentOk c && r.inFifo.connectable c.wordBits && r.outFifo.connectable c.wordBits

/-- The state after `Reset(img, P, in_fifo, out_fifo)` (rule R400), which is the table of rule R47. -/
def State.resetWith (c : Config) (r : LoadRequest) : State :=
  { cfg := c
    mem := Mem.ofWords 0 r.image
    extent := r.extent
    pc := 0
    rb := 0
    rs := .running
    cause := none
    opidx := 0
    faultPc := 0
    faultValue := 0
    inp := { r.inFifo with consumerAlive := true }
    out := { r.outFifo with closed := false }
    outDrop := none }

/-- Where the block stands between reset and run (rules R401 and R402). It is the environment's control of the controller,
not architectural state of the core (rule R30; log entry 9). -/
inductive Phase where
  /-- in reset: nothing was loaded, or the load port refused the image (rule R401) -/
  | inReset
  /-- loaded and not yet released: no state changes (rule R402) -/
  | loaded
  /-- released: the controller steps, and cannot be paused (rule R402) -/
  | released
  deriving DecidableEq, Repr

/-- One block: the core and where it stands. -/
structure Block where
  phase : Phase
  core  : State
  deriving DecidableEq, Repr

namespace Block

/-- Reset with load, from any run state (rule R400). An image that breaks rule R401 is refused: the block does not leave
reset, and no fault is reported (log entry 19). `none` where the extent or a FIFO is none that rules R9 and R152 let the
environment bring. -/
def load (b : Block) (r : LoadRequest) : Option Block :=
  if r.accepted b.core.cfg then
    if r.legal b.core.cfg then some { phase := .loaded, core := State.resetWith b.core.cfg r } else none
  else some { b with phase := .inReset }

/-- The release input (rule R402). -/
def release (b : Block) : Block :=
  match b.phase with
  | .loaded => { b with phase := .released }
  | .inReset => b
  | .released => b

/-- One step of the controller of a released block; before the release nothing changes (rule R402). -/
def step (b : Block) : Block :=
  match b.phase with
  | .released =>
    match Machine.step b.core with
    | .next t => { b with core := t }
    | .fault _ => b
    | .refused _ => b
  | .inReset => b
  | .loaded => b

end Block

/-! ## The environment's side of the two FIFOs -/

/-- The actions of the producer of the input FIFO and the consumer of the output FIFO (rules R152 and R155). They are the only
external events a core sees (rule R314). -/
inductive EnvEvent where
  /-- the input FIFO's producer pushes a value -/
  | push (v : Int)
  /-- the input FIFO's producer closes -/
  | close
  /-- the output FIFO's consumer pops a value -/
  | pop
  /-- the output FIFO's consumer abandons -/
  | abandon
  deriving DecidableEq, Repr

namespace Fifo

/-- A push is allowed only when there is room and the consumer is alive (rule R152), and a FIFO datum is a word of the width
`w` (rule R6). -/
def canPush (f : Fifo) (w : Nat) (v : Int) : Bool := !f.full && f.consumerAlive && isWord w v

/-- A pop is allowed only when a value is queued (rule R152); what is queued when the consumer abandons is never
delivered, so an abandoned FIFO is not popped. -/
def canPop (f : Fifo) : Bool := f.nonempty && f.consumerAlive

end Fifo

/-- The state after an environment action, `none` where rule R152 does not allow it (log entry 10). -/
def State.env (s : State) (e : EnvEvent) : Option State :=
  match e with
  | .push v => if s.inp.canPush s.cfg.wordBits v then some { s with inp := s.inp.push v } else none
  | .close => some { s with inp := s.inp.close }
  | .pop => if s.out.canPop then some { s with out := s.out.pop } else none
  | .abandon => some { s with out := s.out.abandon }

/-! ## The status port -/

/-- What the status port presents (rules R40 and R41). -/
structure StatusPort where
  status     : BitVec 64
  faultPc    : Nat
  faultValue : Int
  deriving DecidableEq, Repr

/-- The status port. -/
def State.statusPort (s : State) : StatusPort :=
  { status := s.status, faultPc := s.faultPc, faultValue := s.faultValue }

/-- The `run` result (rule R316). -/
inductive RunResult where
  /-- "nothing on success": the core halted or its input ended -/
  | success
  /-- the fault report -/
  | failure (cause : Option Cause) (opidx : Fin 4) (faultPc : Nat) (faultValue : Int)
  deriving DecidableEq, Repr

/-- The `run` result, `none` while the run has not ended: a waiting core has not ended (rules R315 and R316). -/
def State.runResult (s : State) : Option RunResult :=
  match s.rs with
  | .running => none
  | .waitIn => none
  | .waitOut => none
  | .halted => some .success
  | .inputEnded => some .success
  | .faulted => some (.failure s.cause s.opidx s.faultPc s.faultValue)

/-! ## The dump port -/

/-- The memory dump (rule R77): `L` and the words `M[0 .. L-1]`, at a step boundary (log entry 14). -/
def State.dump (s : State) : Nat × List Int := (s.extent, (List.range s.extent).map s.memRead)

end Sys2Proof.Machine
end

