-- ==== Sys2Proof/Machine/Network.lean ====
section
/-! DEFINITION. Several cores composed through FIFOs (rules R324 to R328): agents, their steps, and the source's topologies. The
order in which agents step is not fixed (rule R326), so which agent steps is an argument (log entry 11). -/

namespace Sys2Proof.Machine

/-- A core and its wiring: the index of the FIFO it consumes and of the one it produces. The queues are the network's, so
the FIFO fields of `core` are replaced by the network's before every step and are not otherwise read. -/
structure Node where
  core   : State
  inIdx  : Nat
  outIdx : Nat
  deriving DecidableEq, Repr

/-- Cores of one word width and the FIFOs between them and to the environment. -/
structure Network where
  wordBits : Nat
  nodes    : List Node
  fifos    : List Fifo
  deriving DecidableEq, Repr

/-- The agents of rule R326: every core, and the environment's producer and consumer of a FIFO end that no core holds. -/
inductive Agent where
  | core (k : Nat)
  | producer (f : Nat)
  | consumer (f : Nat)
  deriving DecidableEq, Repr

/-- The steps of the agents: a core's controller step, and the operations of rule R152 on FIFO `f`. -/
inductive Action where
  | core (k : Nat)
  | push (f : Nat) (v : Int)
  | close (f : Nat)
  | pop (f : Nat)
  | abandon (f : Nat)
  deriving DecidableEq, Repr

/-- The agent whose step an action is. -/
def Action.agent : Action → Agent
  | .core k => .core k
  | .push f _ => .producer f
  | .close f => .producer f
  | .pop f => .consumer f
  | .abandon f => .consumer f

namespace Network

/-- A core produces into FIFO `f`. -/
def hasProducer (n : Network) (f : Nat) : Bool := n.nodes.any fun d => decide (d.outIdx = f)

/-- A core consumes FIFO `f`. -/
def hasConsumer (n : Network) (f : Nat) : Bool := n.nodes.any fun d => decide (d.inIdx = f)

/-- Every core's FIFOs exist, no FIFO has two producing or two consuming cores (rules R152 and R327), and the cores have the
network's width. -/
def wired (n : Network) : Bool :=
  n.nodes.all (fun d => decide (d.inIdx < n.fifos.length) && decide (d.outIdx < n.fifos.length)
      && decide (d.core.cfg.wordBits = n.wordBits))
    && decide (n.nodes.map (·.inIdx)).Nodup && decide (n.nodes.map (·.outIdx)).Nodup

/-- A core as it sees the network: with the FIFOs it is wired to. -/
def view (n : Network) (d : Node) : Option State :=
  match n.fifos[d.inIdx]?, n.fifos[d.outIdx]? with
  | some fi, some fo => some { d.core with inp := fi, out := fo }
  | _, _ => none

/-- A FIFO a core both produces into and consumes, after a step that took it from `f` to the two ends `i` and `o`: a step
moves at most one value (rule R66), and each flag has one writer (rule R152). -/
def mergeEnds (f i o : Fifo) : Fifo :=
  { f with q := if i.q = f.q then o.q else i.q, closed := o.closed, consumerAlive := i.consumerAlive }

/-- The network's FIFOs after a core's step. -/
def writeBack (n : Network) (d : Node) (s t : State) : List Fifo :=
  if d.inIdx = d.outIdx then n.fifos.set d.inIdx (mergeEnds s.inp t.inp t.out)
  else (n.fifos.set d.inIdx t.inp).set d.outIdx t.out

/-- The step of core `k`, none once its run has ended (rule R315). -/
def coreStep (n : Network) (k : Nat) : Option Network :=
  match n.nodes[k]? with
  | none => none
  | some d =>
    match n.view d with
    | none => none
    | some s =>
      if s.rs.terminal then none
      else
        match Machine.step s with
        | .next t => some { n with nodes := n.nodes.set k { d with core := t }, fifos := n.writeBack d s t }
        | .fault _ => none
        | .refused _ => none

/-- An environment action on FIFO `f`, where `allowed` holds of it. -/
def fifoStep (n : Network) (f : Nat) (allowed : Fifo → Bool) (act : Fifo → Fifo) : Option Network :=
  match n.fifos[f]? with
  | none => none
  | some x => if allowed x then some { n with fifos := n.fifos.set f (act x) } else none

/-- An agent's step; `none` where it has none. The environment holds only the FIFO ends no core holds (rule R326). -/
def step (n : Network) (a : Action) : Option Network :=
  match a with
  | .core k => n.coreStep k
  | .push f v => if n.hasProducer f then none else n.fifoStep f (fun x => x.canPush n.wordBits v) fun x => x.push v
  | .close f => if n.hasProducer f then none else n.fifoStep f (fun _ => true) Fifo.close
  | .pop f => if n.hasConsumer f then none else n.fifoStep f Fifo.canPop Fifo.pop
  | .abandon f => if n.hasConsumer f then none else n.fifoStep f (fun _ => true) Fifo.abandon

/-- A FIFO the environment creates (rule R152): its index is the number of FIFOs before. `none` where rule R152 lets no such
FIFO be created. -/
def connect (n : Network) (f : Fifo) : Option Network :=
  if f.connectable n.wordBits then some { n with fifos := n.fifos ++ [f] } else none

/-- Core `k` may take the consumer end of FIFO `i`, whose queue is `f`: no other core holds it, and its consumer has not
abandoned, since `consumer_alive` is never set again (rule R152). -/
def canConsume (n : Network) (k i : Nat) (f : Fifo) : Bool :=
  f.consumerAlive && n.nodes.zipIdx.all fun d => decide (d.2 = k) || decide (d.1.inIdx ≠ i)

/-- Core `k` may take the producer end of FIFO `o`, whose queue is `f`: no other core holds it, and its producer has not closed,
since `closed` is never cleared (rule R152). -/
def canProduce (n : Network) (k o : Nat) (f : Fifo) : Bool :=
  !f.closed && n.nodes.zipIdx.all fun d => decide (d.2 = k) || decide (d.1.outIdx ≠ o)

/-- Reset with load of core `k`, connected to FIFOs `i` and `o` (rules R325 and R400): no other core changes, and the FIFOs the
core held before stay as they are (log entry 20). `none` for a refused image (rule R401), an extent outside rule R9, and a
FIFO end that does not exist or that the core may not take. -/
def load (n : Network) (k : Nat) (image : List Int) (extent i o : Nat) : Option Network :=
  match n.nodes[k]?, n.fifos[i]?, n.fifos[o]? with
  | some d, some fi, some fo =>
    let r : LoadRequest := { image := image, extent := extent, inFifo := fi, outFifo := fo }
    let e : Node := { core := State.resetWith d.core.cfg r, inIdx := i, outIdx := o }
    if r.accepted d.core.cfg && r.extentOk d.core.cfg && n.canConsume k i fi && n.canProduce k o fo then
      some { n with nodes := n.nodes.set k e }
    else none
  | _, _, _ => none

/-- The states a schedule leads to: the agents step in turn, each with a step to take. -/
def run (n : Network) (as : List Action) : Option Network :=
  match as with
  | [] => some n
  | a :: t =>
    match n.step a with
    | none => none
    | some m => m.run t

/-- The pipeline of rule R327: core `k` consumes FIFO `k` and produces into FIFO `k+1`. -/
def pipeline (w : Nat) (cores : List State) (fifos : List Fifo) : Network :=
  { wordBits := w, nodes := cores.mapIdx fun k s => { core := s, inIdx := k, outIdx := k + 1 }, fifos := fifos }

/-- The feedback loop of rule R327: as the pipeline, but the last core produces into FIFO 0. -/
def feedback (w : Nat) (cores : List State) (fifos : List Fifo) : Network :=
  { wordBits := w
    nodes := cores.mapIdx fun k s => { core := s, inIdx := k, outIdx := (k + 1) % cores.length }
    fifos := fifos }

end Network

/-- A core has an enabled step (rules R315 and R411): its run has not ended, and its step is not a wait, whatever the run state
it is taken from, since then nothing happens until another agent acts. -/
def State.enabled (s : State) : Bool :=
  !s.rs.terminal &&
    match step s with
    | .next t => !t.rs.waiting
    | .fault _ => false
    | .refused _ => false

/-- An action is an enabled step of its agent. -/
def Network.enabled (n : Network) (a : Action) : Bool :=
  match a with
  | .core k =>
    match n.nodes[k]? with
    | none => false
    | some d =>
      match n.view d with
      | none => false
      | some s => s.enabled
  | .push _ _ => (n.step a).isSome
  | .close _ => (n.step a).isSome
  | .pop _ => (n.step a).isSome
  | .abandon _ => (n.step a).isSome

/-- The agent would take this step: a core every step it has; an agent of the environment those its own program, `wants`, has
reached, which the spec does not describe (log entry 15). -/
def Action.offered (wants : Action → Prop) (a : Action) : Prop :=
  match a with
  | .core _ => True
  | .push _ _ => wants a
  | .close _ => wants a
  | .pop _ => wants a
  | .abandon _ => wants a

/-- Weak fairness towards an agent, the only assumption about time (rule R411; log entry 15): in the run `trace`, whose `j`-th
step is `sched j` and at whose `j`-th state the environment wants `wants j`, an agent that has a step from some state on
takes one again. -/
def Network.FairTo (trace : Nat → Network) (sched : Nat → Action) (wants : Nat → Action → Prop) (g : Agent) : Prop :=
  ∀ j, (∀ i, j ≤ i → ∃ a, a.agent = g ∧ a.offered (wants i) ∧ (trace i).enabled a = true) →
    ∃ i, j ≤ i ∧ (sched i).agent = g

/-- Weak fairness towards every agent (rule R411). -/
def Network.Fair (trace : Nat → Network) (sched : Nat → Action) (wants : Nat → Action → Prop) : Prop :=
  ∀ g, Network.FairTo trace sched wants g

end Sys2Proof.Machine
end

