-- ==== Sys2Proof/Safety.lean ====
section
/-! DEFINITION. The terms claims use: the invariant of a core, runs of one core among its environment's actions with what they pop
and emit, and a second, flat transcription of the step of rule R100 that shares neither decoder nor resolver with the
machine. -/

namespace Sys2Proof.Machine

/-! ## The invariant -/

/-- What holds of a core at every step boundary. -/
structure CoreInv (s : State) : Prop where
  /-- the parameters are legal (rules R6 and R8) -/
  cfgLegal       : s.cfg.legal = true
  /-- memory is in its canonical form -/
  memCanonical   : s.mem.wf = true
  /-- `M[a] = 0` for every `a ≥ L` (rule R37) -/
  memBelow       : s.mem.below s.extent = true
  /-- every cell, `rb`, the recorded value and a dropped value are words (rule R6) -/
  memWords       : s.mem.words s.cfg.wordBits = true
  rbWord         : isWord s.cfg.wordBits s.rb = true
  valueWord      : isWord s.cfg.wordBits s.faultValue = true
  dropWord       : s.outDrop.all (isWord s.cfg.wordBits) = true
  /-- `0 ≤ L ≤ MEM_CAPACITY` (rule R37) -/
  extentBound    : s.extent ≤ s.cfg.memCapacity
  /-- `pc` does not wrap around (rule R33); the last cell's successor `2^(W-1)` is reached (log entry 4) -/
  pcBound        : s.pc ≤ addressBound s.cfg.wordBits
  /-- the FIFOs hold words, at most their depth (rules R6 and R152) -/
  inpLegal       : s.inp.legal s.cfg.wordBits = true
  outLegal       : s.out.legal s.cfg.wordBits = true
  /-- `out_ep.closed` and not `in_ep.consumer_alive` exactly in a terminal state (rule R159) -/
  outClosed      : s.out.closed = s.rs.terminal
  inpAlive       : s.inp.consumerAlive = !s.rs.terminal
  /-- the fault report is at its reset value outside `FAULTED` (rules R40 and R41) -/
  reportClear    : s.rs ≠ .faulted → s.cause = none ∧ s.opidx = 0 ∧ s.faultPc = 0 ∧ s.faultValue = 0
  /-- in `FAULTED` it names a cause, and `FAULT_PC` is the `pc` that faulted (rules R40, R41 and R311) -/
  reportSet      : s.rs = .faulted → s.cause ≠ none ∧ s.faultPc = s.pc
  /-- `out_drop` is raised by a retiring `OUT` whose consumer is gone, only (rules R151 and R157) -/
  dropOnlyByOut  : s.outDrop ≠ none → s.rs = .running ∧ s.out.consumerAlive = false

/-! ## Runs of one core among its environment -/

/-- What happens next at one core: a step of its controller, or an action of the environment on one of its FIFOs. -/
inductive Event where
  | step
  | env (e : EnvEvent)
  deriving DecidableEq, Repr

/-- The values that crossed the core's ports and the environment's, oldest first. -/
structure Trace where
  /-- pushed into the input FIFO by its producer -/
  supplied  : List Int
  /-- popped from the input FIFO by the core -/
  popped    : List Int
  /-- given out by the core: pushed into the output FIFO, or dropped -/
  emitted   : List Int
  /-- popped from the output FIFO by its consumer -/
  delivered : List Int
  deriving DecidableEq, Repr

namespace Trace

/-- Nothing crossed. -/
def empty : Trace := { supplied := [], popped := [], emitted := [], delivered := [] }

/-- One trace after another. -/
def append (x y : Trace) : Trace :=
  { supplied := x.supplied ++ y.supplied
    popped := x.popped ++ y.popped
    emitted := x.emitted ++ y.emitted
    delivered := x.delivered ++ y.delivered }

end Trace

/-- What the step from `s` to `t` popped and emitted, read off the two FIFOs and `out_drop`. -/
def observeStep (s t : State) : Trace :=
  if s.rs.terminal then Trace.empty
  else
    { Trace.empty with
      popped := s.inp.q.take (s.inp.q.length - t.inp.q.length)
      emitted := match t.outDrop with
        | some v => [v]
        | none => t.out.q.drop s.out.q.length }

/-- What an environment action at `s` supplied or was delivered. -/
def observeEnv (s : State) (e : EnvEvent) : Trace :=
  match e with
  | .push v => { Trace.empty with supplied := [v] }
  | .pop => { Trace.empty with delivered := s.out.q.take 1 }
  | .close => Trace.empty
  | .abandon => Trace.empty

/-- The state after one event and what crossed, `none` where the event is not allowed. -/
def eventStep (e : Event) (s : State) : Option (State × Trace) :=
  match e with
  | .env x => (s.env x).map fun t => (t, observeEnv s x)
  | .step =>
    match step s with
    | .next t => some (t, observeStep s t)
    | .fault _ => none
    | .refused _ => none

/-- The state after a list of events and what crossed in all, `none` where one of them is not allowed. -/
def runEvents (es : List Event) (s : State) : Option (State × Trace) :=
  match es with
  | [] => some (s, Trace.empty)
  | e :: rest =>
    match eventStep e s with
    | none => none
    | some (t, x) => (runEvents rest t).map fun r => (r.1, x.append r.2)

/-- The core without its FIFOs and ports, a wait counted as running: what rule R328 says a schedule cannot change. -/
def State.coreView (s : State) : State :=
  { s with
    inp := Fifo.fresh 1
    out := Fifo.fresh 1
    outDrop := none
    rs := if s.rs.waiting then .running else s.rs }

/-! ## A flat transcription of rules R100 and R310 -/

namespace Reference

/-- `ARITY` (rule R94). -/
def arity (op : Nat) : Nat :=
  if op ∈ [1, 2, 7, 8] then 3 else if op ∈ [5, 6] then 2 else if op ∈ [3, 4, 9] then 1 else 0

/-- The legal opcodes (rule R101). -/
def legalOpcode (op : Nat) : Bool := decide (op ∈ [1, 2, 3, 4, 5, 6, 7, 8, 9, 99])

/-- `ROLE(op, i) = D` (rule R95). -/
def isDest (op i : Nat) : Bool := (decide (op ∈ [1, 2, 7, 8]) && decide (i = 3)) || (decide (op = 3) && decide (i = 1))

/-- The instruction word. -/
def word (s : State) : Int := s.memRead s.pc

/-- The opcode. -/
def op (s : State) : Nat := (word s).toNat % 100

/-- The size. -/
def size (s : State) : Nat := arity (op s) + 1

/-- `raw[i]`. -/
def raw (s : State) (i : Nat) : Int := s.memRead (s.pc + i)

/-- `mode[i]`. -/
def mode (s : State) (i : Nat) : Nat := (word s).toNat / 10 ^ (i + 1) % 10

/-- The sum of a Relative address, exact. -/
def sum (s : State) (i : Nat) : Int := s.rb + raw s i

/-- The result an exact sum or product gives where it raises nothing: itself, or its residue where overflow wraps (rule
R13). -/
def reduce (s : State) (x : Int) : Int := if s.cfg.overflowMode = .fault then x else wrapW s.cfg.wordBits x

/-- `ea[i]`. -/
def ea (s : State) (i : Nat) : Int := if mode s i = 0 then raw s i else reduce s (sum s i)

/-- `val[i]`. -/
def val (s : State) (i : Nat) : Int := if mode s i = 1 then raw s i else s.memRead (ea s i).toNat

/-- An exact result is not a word, where that is a fault (rule R13). -/
def overflows (s : State) (x : Int) : Bool := decide (s.cfg.overflowMode = .fault) && !isWord s.cfg.wordBits x

/-- A check: the fault it raises when it fails. -/
def check (fails : Bool) (r : Raise) : Option Raise := if fails then some r else none

/-- The decode-time checks of operand `i` (rule R310, point 4). -/
def decodeChecks (s : State) (i : Nat) : List (Option Raise) :=
  [ check (decide (2 < mode s i)) ⟨.invalidMode, Fin.ofNat 4 i, mode s i⟩,
    check (decide (mode s i = 0) && decide (raw s i < 0)) ⟨.negativePositionalParam, Fin.ofNat 4 i, raw s i⟩,
    check (isDest (op s) i && decide (mode s i = 1)) ⟨.immediateDestination, Fin.ofNat 4 i, raw s i⟩ ]

/-- The resolution-time checks of operand `i` (rule R310, point 5). -/
def resolveChecks (s : State) (i : Nat) : List (Option Raise) :=
  [ check (decide (mode s i = 2) && overflows s (sum s i)) ⟨.arithOverflow, Fin.ofNat 4 i, raw s i⟩,
    check (decide (mode s i = 2) && decide (ea s i < 0)) ⟨.invalidAddress, Fin.ofNat 4 i, ea s i⟩,
    check (isDest (op s) i && decide ((s.cfg.memCapacity : Int) ≤ ea s i)) ⟨.capacityExceeded, Fin.ofNat 4 i, ea s i⟩ ]

/-- A jump is taken (rules R180 and R181). -/
def taken (s : State) : Bool := (decide (op s = 5) && decide (val s 1 ≠ 0)) || (decide (op s = 6) && decide (val s 1 = 0))

/-- The checks in execute (rule R310, point 6). -/
def executeChecks (s : State) : List (Option Raise) :=
  [ check (decide (op s = 1) && overflows s (val s 1 + val s 2)) ⟨.arithOverflow, 0, 1⟩,
    check (decide (op s = 2) && overflows s (val s 1 * val s 2)) ⟨.arithOverflow, 0, 2⟩,
    check (decide (op s = 9) && overflows s (s.rb + val s 1)) ⟨.arithOverflow, 0, 9⟩,
    check (taken s && decide (val s 2 < 0)) ⟨.negativeJumpTarget, 2, val s 2⟩ ]

/-- The operand indexes `1..n`. -/
def operandIndexes (s : State) : List Nat := (List.range (arity (op s))).map (· + 1)

/-- Every check of a step in the order of rule R310. -/
def checks (s : State) : List (Option Raise) :=
  [ check (decide (s.extent ≤ s.pc)) ⟨.missingParams, 0, 1⟩,
    check (decide (word s < 0)) ⟨.invalidOpcode, 0, (word s).tmod 100⟩,
    check (!legalOpcode (op s)) ⟨.invalidOpcode, 0, op s⟩,
    check (decide (s.extent < s.pc + size s)) ⟨.missingParams, 0, size s⟩ ]
  ++ (operandIndexes s).flatMap (decodeChecks s)
  ++ (operandIndexes s).flatMap (resolveChecks s)
  ++ executeChecks s

/-- The first check that fails. -/
def firstFailure (s : State) : Option Raise := (checks s).findSome? id

/-- `pc <- pc + size; RS <- RUNNING`. -/
def next (s : State) (n : Nat) : State := { s with pc := s.pc + n, rs := .running }

/-- The execute rule of the opcode (rules R140, R141, R156, R157, R180, R181, R190, R191, R200, R201), every check passed. -/
def effect (s : State) : State :=
  let a := val s 1
  let b := val s 2
  let dst := (ea s 3).toNat
  if op s = 1 then next (s.memWrite dst (reduce s (a + b))) 4
  else if op s = 2 then next (s.memWrite dst (reduce s (a * b))) 4
  else if op s = 7 then next (s.memWrite dst (if a < b then 1 else 0)) 4
  else if op s = 8 then next (s.memWrite dst (if a = b then 1 else 0)) 4
  else if op s = 3 then
    match s.inp.q with
    | v :: q => next ({ s with inp := { s.inp with q := q } }.memWrite (ea s 1).toNat v) 2
    | [] =>
      if s.inp.closed then
        { s with rs := .inputEnded, out := { s.out with closed := true }, inp := { s.inp with consumerAlive := false } }
      else { s with rs := .waitIn }
  else if op s = 4 then
    if s.out.consumerAlive = false then next { s with outDrop := some a } 2
    else if s.out.q.length < s.out.depth then next { s with out := { s.out with q := s.out.q ++ [a] } } 2
    else { s with rs := .waitOut }
  else if op s = 9 then next { s with rb := reduce s (s.rb + a) } 2
  else if op s = 99 then
    { s with rs := .halted, out := { s.out with closed := true }, inp := { s.inp with consumerAlive := false } }
  else if taken s then { s with pc := b.toNat, rs := .running }
  else next s 3

/-- The state after the fault `r` (rule R311). -/
def fault (s : State) (r : Raise) : State :=
  { s with
    rs := .faulted
    cause := some r.cause
    opidx := r.opidx
    faultPc := s.pc
    faultValue := r.value
    out := { s.out with closed := true }
    inp := { s.inp with consumerAlive := false } }

/-- The state after one step (rules R39, R100, R310 and R311), the last step's `out_drop` gone. -/
def stepState (s : State) : State :=
  if s.rs.terminal then s
  else
    match firstFailure { s with outDrop := none } with
    | some r => fault { s with outDrop := none } r
    | none => effect { s with outDrop := none }

end Reference

end Sys2Proof.Machine
end

