-- ==== Sys2Proof/Certificates/Slice0/Obligations.lean ====
section
/-! DEFINITION. The statements for the provers, each a rule of the spec or a property the rules imply. -/

open Sys2Proof Sys2Proof.Machine

/-! ## Encoding -/

/-- Rule R109: the canonical encoding is one word with the opcode in its two low digits, the mode of each operand in the next
digits and nothing above, then the raw values; and "decoding the canonical encoding of an instruction returns that
instruction", whatever cells follow it. -/
def Obligations.DecodeInvertsEncode : Prop :=
  ∀ (i : Instr),
    (∃ w : Nat, (encode i)[0]? = some (w : Int) ∧ w % 100 = i.opcode ∧ w < 10 ^ (i.operands.length + 2) ∧
      ∀ k o, i.operands[k]? = some o → digit w (k + 2) = o.2.mode.digit ∧ (encode i)[k + 1]? = some o.2.raw) ∧
    (encode i).length = i.operands.length + 1 ∧
    ∀ (rest : List Int), i.wellFormed = true → decode (encode i ++ rest) = .ok i

/-- Rules R90 to R93, the other direction: what the decoder accepts is a non-negative word followed by enough cells, and
the instruction it gives has as canonical encoding that word's low `n + 2` digits and the `n` cells after it. -/
def Obligations.EncodeInvertsDecode : Prop :=
  ∀ (w : Int) (rest : List Int) (i : Instr), decode (w :: rest) = .ok i →
    0 ≤ w ∧ i.operands.length ≤ rest.length ∧
    encode i = w % 10 ^ (i.operands.length + 2) :: rest.take i.operands.length

/-- Rule R93: digits above the last mode digit the opcode uses "neither select a different instruction nor fault": two words
of a table opcode that agree below those digits decode alike, acceptance and rejection both. -/
def Obligations.DecodeIgnoresUnusedDigits : Prop :=
  ∀ row ∈ opcodeTable, ∀ (w w' : Int) (rest : List Int), 0 ≤ w → 0 ≤ w' → w % 100 = row.code →
    w % 10 ^ (row.roles.length + 2) = w' % 10 ^ (row.roles.length + 2) →
    decode (w :: rest) = decode (w' :: rest)

/-- Rule R103: the checks of one operand in their order, and the operand that passes them. -/
def Obligations.OperandDecodeChecks : Prop :=
  ∀ (w : Nat) (i : Fin 4) (role : Role) (raw : Int),
    (2 < digit w (i.val + 1) → decodeOperand w i role raw = .error (.invalidMode i (digit w (i.val + 1)))) ∧
    (digit w (i.val + 1) = 0 → raw < 0 → decodeOperand w i role raw = .error (.negativePositionalParam i raw)) ∧
    (digit w (i.val + 1) = 0 → 0 ≤ raw → decodeOperand w i role raw = .ok ⟨.position, raw⟩) ∧
    (digit w (i.val + 1) = 1 → role = .dest → decodeOperand w i role raw = .error (.immediateDestination i raw)) ∧
    (digit w (i.val + 1) = 1 → role = .read → decodeOperand w i role raw = .ok ⟨.immediate, raw⟩) ∧
    (digit w (i.val + 1) = 2 → decodeOperand w i role raw = .ok ⟨.relative, raw⟩)

/-- The decoder gives well-formed instructions only (rules R103 and R108). -/
def Obligations.DecodedInstructionsAreWellFormed : Prop :=
  ∀ (cells : List Int) (i : Instr), decode cells = .ok i → i.wellFormed = true

/-- Words written out from rules R91 to R97, one for each instruction (the words of `95_test_vectors.md`, section 2.1). -/
def Obligations.SampleWordsDecode : Prop :=
  decode [21201, 5, 6, 7] = .ok (.add ⟨.relative, 5⟩ ⟨.immediate, 6⟩ ⟨.relative, 7⟩) ∧
  decode [1002, 5, -6, 7] = .ok (.mul ⟨.position, 5⟩ ⟨.immediate, -6⟩ ⟨.position, 7⟩) ∧
  decode [203, -1] = .ok (.input ⟨.relative, -1⟩) ∧
  decode [10004, 9] = .ok (.output ⟨.position, 9⟩) ∧
  decode [1105, 1, 7] = .ok (.jt ⟨.immediate, 1⟩ ⟨.immediate, 7⟩) ∧
  decode [1006, 101, 0] = .ok (.jf ⟨.position, 101⟩ ⟨.immediate, 0⟩) ∧
  decode [20107, -5, 3, 5] = .ok (.lt ⟨.immediate, -5⟩ ⟨.position, 3⟩ ⟨.relative, 5⟩) ∧
  decode [1008, 100, 16, 101] = .ok (.eq ⟨.position, 100⟩ ⟨.immediate, 16⟩ ⟨.position, 101⟩) ∧
  decode [109, -5] = .ok (.arb ⟨.immediate, -5⟩) ∧
  decode [100099] = .ok .hlt ∧
  decode [11108, 1, 1, 1] = .error (.immediateDestination 3 1)

/-! ## Words and memory -/

/-- Rule R12: `wrapW(x)` is the unique word congruent to `x` modulo `2^W`, and a word is an integer in
`[-2^(W-1), 2^(W-1) - 1]`. -/
def Obligations.WrapIsTheUniqueCongruentWord : Prop :=
  ∀ (w : Nat), 1 ≤ w →
    (∀ x : Int, isWord w x = true ↔ -(2 ^ (w - 1)) ≤ x ∧ x ≤ 2 ^ (w - 1) - 1) ∧
    (∀ x : Int, isWord w (wrapW w x) = true ∧ (2 ^ w : Int) ∣ wrapW w x - x) ∧
    (∀ x y : Int, isWord w y = true → (2 ^ w : Int) ∣ y - x → y = wrapW w x)

/-- Rule R64: a write at or above the extent grows it to `a + 1` and fills with 0, then the cell holds the value; every other
cell reads as before. Rule R65: the extent never decreases, and writing 0 counts. -/
def Obligations.MemWriteGrowsThenWrites : Prop :=
  ∀ (s : State) (a : Nat) (v : Int), s.mem.wf = true → s.mem.below s.extent = true →
    (s.memWrite a v).extent = max s.extent (a + 1) ∧
    (s.memWrite a v).memRead a = v ∧
    (∀ b, s.extent ≤ b → b < a → (s.memWrite a v).memRead b = 0) ∧
    (∀ b, b ≠ a → (s.memWrite a v).memRead b = s.memRead b) ∧
    (s.memWrite a v).mem.wf = true ∧ (s.memWrite a v).mem.below (s.memWrite a v).extent = true

/-- Rule R71: a read returns the value of the most recent write to the same address, else what the cell held before. -/
def Obligations.ReadReturnsMostRecentWrite : Prop :=
  ∀ (ws : List (Nat × Int)) (s : State) (b : Nat), s.mem.wf = true → s.mem.below s.extent = true →
    (ws.foldl (fun u c => u.memWrite c.1 c.2) s).memRead b =
      match ws.reverse.find? (fun c => decide (c.1 = b)) with
      | some c => c.2
      | none => s.memRead b

/-! ## Operands -/

/-- Rule R98: the read value of an operand in every mode, and the fault where the mode has none; the sum of a Relative
address is reduced or checked as rule R13 says, and its overflow is rule R309's. -/
def Obligations.ReadOperandForms : Prop :=
  ∀ (s : State) (i : Fin 4) (r : Int),
    (0 ≤ r → s.readOperand i ⟨.position, r⟩ = .ok (s.memRead r.toNat)) ∧
    (r < 0 → s.readOperand i ⟨.position, r⟩ = .error ⟨.negativePositionalParam, i, r⟩) ∧
    s.readOperand i ⟨.immediate, r⟩ = .ok r ∧
    (s.cfg.overflowMode = .fault → isWord s.cfg.wordBits (s.rb + r) = false →
      s.readOperand i ⟨.relative, r⟩ = .error ⟨.arithOverflow, i, r⟩) ∧
    (∀ ea, (s.cfg.overflowMode = .wrap ∧ ea = wrapW s.cfg.wordBits (s.rb + r)) ∨
        (s.cfg.overflowMode = .fault ∧ isWord s.cfg.wordBits (s.rb + r) = true ∧ ea = s.rb + r) →
      (0 ≤ ea → s.readOperand i ⟨.relative, r⟩ = .ok (s.memRead ea.toNat)) ∧
      (ea < 0 → s.readOperand i ⟨.relative, r⟩ = .error ⟨.invalidAddress, i, ea⟩))

/-- Rule R99 with the capacity check of rule R104: the address of a destination in every mode, and the fault where it has
none. -/
def Obligations.DestinationForms : Prop :=
  ∀ (s : State) (i : Fin 4) (r : Int),
    (r < 0 → s.destAddress i ⟨.position, r⟩ = .error ⟨.negativePositionalParam, i, r⟩) ∧
    (0 ≤ r → r < s.cfg.memCapacity → s.destAddress i ⟨.position, r⟩ = .ok r.toNat) ∧
    (0 ≤ r → s.cfg.memCapacity ≤ r → s.destAddress i ⟨.position, r⟩ = .error ⟨.capacityExceeded, i, r⟩) ∧
    s.destAddress i ⟨.immediate, r⟩ = .error ⟨.immediateDestination, i, r⟩ ∧
    (s.cfg.overflowMode = .fault → isWord s.cfg.wordBits (s.rb + r) = false →
      s.destAddress i ⟨.relative, r⟩ = .error ⟨.arithOverflow, i, r⟩) ∧
    (∀ ea, (s.cfg.overflowMode = .wrap ∧ ea = wrapW s.cfg.wordBits (s.rb + r)) ∨
        (s.cfg.overflowMode = .fault ∧ isWord s.cfg.wordBits (s.rb + r) = true ∧ ea = s.rb + r) →
      (ea < 0 → s.destAddress i ⟨.relative, r⟩ = .error ⟨.invalidAddress, i, ea⟩) ∧
      (0 ≤ ea → ea < s.cfg.memCapacity → s.destAddress i ⟨.relative, r⟩ = .ok ea.toNat) ∧
      (0 ≤ ea → s.cfg.memCapacity ≤ ea → s.destAddress i ⟨.relative, r⟩ = .error ⟨.capacityExceeded, i, ea⟩))

/-! ## The instructions -/

/-- Rule R140 with rule R142: `ADD` writes the sum, modulo `2^W` where overflow wraps, and retires, unless the sum is not a
word and overflow faults. -/
def Obligations.AddWritesSum : Prop :=
  ∀ (a b d : Param),
    encode (.add a b d) =
      [((1 + 100 * a.mode.digit + 1000 * b.mode.digit + 10000 * d.mode.digit : Nat) : Int), a.raw, b.raw, d.raw] ∧
    ∀ (s : State) (x y : Int) (dst : Nat),
    s.readOperand 1 a = .ok x → s.readOperand 2 b = .ok y → s.destAddress 3 d = .ok dst →
    (s.cfg.overflowMode = .wrap →
      exec (.add a b d) s =
        .next { s.memWrite dst (wrapW s.cfg.wordBits (x + y)) with pc := s.pc + 4, rs := .running }) ∧
    (s.cfg.overflowMode = .fault → isWord s.cfg.wordBits (x + y) = true →
      exec (.add a b d) s = .next { s.memWrite dst (x + y) with pc := s.pc + 4, rs := .running }) ∧
    (s.cfg.overflowMode = .fault → isWord s.cfg.wordBits (x + y) = false →
      exec (.add a b d) s = .next (s.raise ⟨.arithOverflow, 0, 1⟩))

/-- Rule R141 with rule R142: `MUL` writes the product, modulo `2^W` where overflow wraps, and retires, unless it is not a
word and overflow faults. -/
def Obligations.MulWritesProduct : Prop :=
  ∀ (a b d : Param),
    encode (.mul a b d) =
      [((2 + 100 * a.mode.digit + 1000 * b.mode.digit + 10000 * d.mode.digit : Nat) : Int), a.raw, b.raw, d.raw] ∧
    ∀ (s : State) (x y : Int) (dst : Nat),
    s.readOperand 1 a = .ok x → s.readOperand 2 b = .ok y → s.destAddress 3 d = .ok dst →
    (s.cfg.overflowMode = .wrap →
      exec (.mul a b d) s =
        .next { s.memWrite dst (wrapW s.cfg.wordBits (x * y)) with pc := s.pc + 4, rs := .running }) ∧
    (s.cfg.overflowMode = .fault → isWord s.cfg.wordBits (x * y) = true →
      exec (.mul a b d) s = .next { s.memWrite dst (x * y) with pc := s.pc + 4, rs := .running }) ∧
    (s.cfg.overflowMode = .fault → isWord s.cfg.wordBits (x * y) = false →
      exec (.mul a b d) s = .next (s.raise ⟨.arithOverflow, 0, 2⟩))

/-- Rule R190: `LT` writes 1 or 0 by the signed comparison and retires. -/
def Obligations.LtWritesComparison : Prop :=
  ∀ (a b d : Param),
    encode (.lt a b d) =
      [((7 + 100 * a.mode.digit + 1000 * b.mode.digit + 10000 * d.mode.digit : Nat) : Int), a.raw, b.raw, d.raw] ∧
    ∀ (s : State) (x y : Int) (dst : Nat),
    s.readOperand 1 a = .ok x → s.readOperand 2 b = .ok y → s.destAddress 3 d = .ok dst →
    (x < y →
      exec (.lt a b d) s = .next { s.memWrite dst 1 with pc := s.pc + 4, rs := .running }) ∧
    (y ≤ x →
      exec (.lt a b d) s = .next { s.memWrite dst 0 with pc := s.pc + 4, rs := .running })

/-- Rule R191: `EQ` writes 1 or 0 by the equality of full words and retires. -/
def Obligations.EqWritesComparison : Prop :=
  ∀ (a b d : Param),
    encode (.eq a b d) =
      [((8 + 100 * a.mode.digit + 1000 * b.mode.digit + 10000 * d.mode.digit : Nat) : Int), a.raw, b.raw, d.raw] ∧
    ∀ (s : State) (x y : Int) (dst : Nat),
    s.readOperand 1 a = .ok x → s.readOperand 2 b = .ok y → s.destAddress 3 d = .ok dst →
    (x = y → exec (.eq a b d) s = .next { s.memWrite dst 1 with pc := s.pc + 4, rs := .running }) ∧
    (x ≠ y → exec (.eq a b d) s = .next { s.memWrite dst 0 with pc := s.pc + 4, rs := .running })

/-- Rule R156: `IN` pops the oldest value and writes it; on an empty closed FIFO it ends the run, with the closure of rule
R159; on an empty open one it waits; a fault of its operand is decided before the FIFO is examined and pops nothing. -/
def Obligations.InPopsEndsOrWaits : Prop :=
  ∀ (d : Param),
    encode (.input d) = [((3 + 100 * d.mode.digit : Nat) : Int), d.raw] ∧
    (∀ (s : State) (e : Raise), s.destAddress 1 d = .error e →
      exec (.input d) s = .next (s.raise e) ∧ (s.raise e).inp.q = s.inp.q) ∧
    ∀ (s : State) (dst : Nat), s.destAddress 1 d = .ok dst →
    (∀ v q, s.inp.q = v :: q →
      exec (.input d) s = .next
        { { s with inp := { s.inp with q := q } }.memWrite dst v with pc := s.pc + 2, rs := .running }) ∧
    (s.inp.q = [] → s.inp.closed = true →
      exec (.input d) s = .next
        { s with
          rs := .inputEnded
          out := { s.out with closed := true }
          inp := { s.inp with consumerAlive := false } }) ∧
    (s.inp.q = [] → s.inp.closed = false → exec (.input d) s = .next { s with rs := .waitIn })

/-- Rule R157: `OUT` pushes its operand's value; to a consumer that is gone it reports it on `out_drop`; on a full FIFO it
waits. -/
def Obligations.OutPushesDropsOrWaits : Prop :=
  ∀ (a : Param),
    encode (.output a) = [((4 + 100 * a.mode.digit : Nat) : Int), a.raw] ∧
    ∀ (s : State) (v : Int), s.readOperand 1 a = .ok v →
    (s.out.consumerAlive = false →
      exec (.output a) s = .next { s with outDrop := some v, pc := s.pc + 2, rs := .running }) ∧
    (s.out.consumerAlive = true → s.out.q.length < s.out.depth →
      exec (.output a) s = .next
        { s with out := { s.out with q := s.out.q ++ [v] }, pc := s.pc + 2, rs := .running }) ∧
    (s.out.consumerAlive = true → s.out.depth ≤ s.out.q.length →
      exec (.output a) s = .next { s with rs := .waitOut })

/-- Rules R180 and R182: `JT` is taken when `a ≠ 0`, sets `pc` to the target exactly, and faults on a negative target only when
taken; a target operand that does not resolve faults whether the jump is taken or not. -/
def Obligations.JtJumpsWhenNonzero : Prop :=
  ∀ (a b : Param),
    encode (.jt a b) = [((5 + 100 * a.mode.digit + 1000 * b.mode.digit : Nat) : Int), a.raw, b.raw] ∧
    (∀ (s : State) (x : Int) (e : Raise), s.readOperand 1 a = .ok x → s.readOperand 2 b = .error e →
      exec (.jt a b) s = .next (s.raise e)) ∧
    ∀ (s : State) (x y : Int), s.readOperand 1 a = .ok x → s.readOperand 2 b = .ok y →
    (x ≠ 0 → 0 ≤ y → exec (.jt a b) s = .next { s with pc := y.toNat, rs := .running }) ∧
    (x ≠ 0 → y < 0 → exec (.jt a b) s = .next (s.raise ⟨.negativeJumpTarget, 2, y⟩)) ∧
    (x = 0 → exec (.jt a b) s = .next { s with pc := s.pc + 3, rs := .running })

/-- Rules R181 and R182: `JF` is taken when `a = 0`; otherwise as `JT`. -/
def Obligations.JfJumpsWhenZero : Prop :=
  ∀ (a b : Param),
    encode (.jf a b) = [((6 + 100 * a.mode.digit + 1000 * b.mode.digit : Nat) : Int), a.raw, b.raw] ∧
    (∀ (s : State) (x : Int) (e : Raise), s.readOperand 1 a = .ok x → s.readOperand 2 b = .error e →
      exec (.jf a b) s = .next (s.raise e)) ∧
    ∀ (s : State) (x y : Int), s.readOperand 1 a = .ok x → s.readOperand 2 b = .ok y →
    (x = 0 → 0 ≤ y → exec (.jf a b) s = .next { s with pc := y.toNat, rs := .running }) ∧
    (x = 0 → y < 0 → exec (.jf a b) s = .next (s.raise ⟨.negativeJumpTarget, 2, y⟩)) ∧
    (x ≠ 0 → exec (.jf a b) s = .next { s with pc := s.pc + 3, rs := .running })

/-- Rule R200: `ARB` adds its operand, read at the old `rb`, to `rb` modulo `2^W` and retires, unless the sum is not a word and
overflow faults; no other instruction writes `rb`. -/
def Obligations.ArbAdjustsRelativeBase : Prop :=
  (∀ (i : Instr) (s t : State), (∀ p, i ≠ .arb p) → exec i s = .next t → t.rb = s.rb) ∧
  ∀ (a : Param),
    encode (.arb a) = [((9 + 100 * a.mode.digit : Nat) : Int), a.raw] ∧
    ∀ (s : State) (x : Int), s.readOperand 1 a = .ok x →
    (s.cfg.overflowMode = .wrap →
      exec (.arb a) s = .next { s with rb := wrapW s.cfg.wordBits (s.rb + x), pc := s.pc + 2, rs := .running }) ∧
    (s.cfg.overflowMode = .fault → isWord s.cfg.wordBits (s.rb + x) = true →
      exec (.arb a) s = .next { s with rb := s.rb + x, pc := s.pc + 2, rs := .running }) ∧
    (s.cfg.overflowMode = .fault → isWord s.cfg.wordBits (s.rb + x) = false →
      exec (.arb a) s = .next (s.raise ⟨.arithOverflow, 0, 9⟩))

/-- Rule R201 with rule R159: every word whose low digits are 99 is `HLT`, whatever follows; it halts, `pc` stays at the `HLT`,
and only the two closure flags change beside `RS`. -/
def Obligations.HltHalts : Prop :=
  encode .hlt = [99] ∧
  (∀ (w : Int) (rest : List Int), 0 ≤ w → w % 100 = 99 → decode (w :: rest) = .ok .hlt) ∧
  ∀ (s : State),
    exec .hlt s = .next
      { s with
        rs := .halted
        out := { s.out with closed := true }
        inp := { s.inp with consumerAlive := false } }

/-- An operand that does not resolve: the instruction takes that operand's fault, the first in operand order (rules R104 and
R310, point 5). The statement covers terms no word decodes to as well, whose order is the model's choice (log entry 12): of
a term with a Relative operand 1 that resolves negative and an Immediate destination it says `InvalidAddress(1)`, where
rule R310's point 4 rejects the word the term would come from. -/
def Obligations.FirstOperandFaultIsTaken : Prop :=
  ∀ (a b d : Param) (s : State) (x y : Int) (e : Raise),
    (s.readOperand 1 a = .error e →
      ∀ i ∈ [Instr.add a b d, .mul a b d, .lt a b d, .eq a b d, .jt a b, .jf a b, .output a, .arb a],
        exec i s = .next (s.raise e)) ∧
    (s.readOperand 1 a = .ok x → s.readOperand 2 b = .error e →
      ∀ i ∈ [Instr.add a b d, .mul a b d, .lt a b d, .eq a b d, .jt a b, .jf a b], exec i s = .next (s.raise e)) ∧
    (s.readOperand 1 a = .ok x → s.readOperand 2 b = .ok y → s.destAddress 3 d = .error e →
      ∀ i ∈ [Instr.add a b d, .mul a b d, .lt a b d, .eq a b d], exec i s = .next (s.raise e)) ∧
    (s.destAddress 1 d = .error e → exec (.input d) s = .next (s.raise e))

/-! ## Frames -/

/-- The frame of `ADD`, `MUL`, `LT` and `EQ` (rules R66, R140, R141, R190, R191 and R311): no cell but the destination changes, and
none at all where the instruction faults; `rb`, the parameters, the queues and `out_drop` stay; the fault report and the
closure flags change by a fault only. -/
def Obligations.ThreeOperandFrame : Prop :=
  ∀ (a b d : Param) (i : Instr) (s t : State), i ∈ [Instr.add a b d, .mul a b d, .lt a b d, .eq a b d] →
    s.mem.wf = true → s.mem.below s.extent = true → exec i s = .next t →
    (∀ dst, s.destAddress 3 d = .ok dst → ∀ c, c ≠ dst → t.memRead c = s.memRead c) ∧
    (∀ e, s.destAddress 3 d = .error e → ∀ c, t.memRead c = s.memRead c) ∧
    (t.rs = .faulted → t.pc = s.pc ∧ t.extent = s.extent ∧ ∀ c, t.memRead c = s.memRead c) ∧
    (t.rs ≠ .faulted → t.inp = s.inp ∧ t.out = s.out ∧ t.cause = s.cause ∧ t.opidx = s.opidx ∧
      t.faultPc = s.faultPc ∧ t.faultValue = s.faultValue) ∧
    t.rb = s.rb ∧ t.cfg = s.cfg ∧ t.outDrop = s.outDrop ∧ t.inp.q = s.inp.q ∧ t.out.q = s.out.q ∧
    t.inp.closed = s.inp.closed ∧ t.out.consumerAlive = s.out.consumerAlive

/-- The frame of `IN` (rules R66, R156, R159 and R311): no cell but the destination changes, and none at all unless a value is
popped; `rb`, the parameters, the output queue and `out_drop` stay; the fault report changes by a fault only. -/
def Obligations.InFrame : Prop :=
  ∀ (d : Param) (s t : State), s.mem.wf = true → s.mem.below s.extent = true → exec (.input d) s = .next t →
    (∀ dst, s.destAddress 1 d = .ok dst → ∀ c, c ≠ dst → t.memRead c = s.memRead c) ∧
    (∀ e, s.destAddress 1 d = .error e → ∀ c, t.memRead c = s.memRead c) ∧
    (t.rs ≠ .running → t.pc = s.pc ∧ t.extent = s.extent ∧ t.inp.q = s.inp.q ∧ ∀ c, t.memRead c = s.memRead c) ∧
    (t.rs ≠ .faulted → t.cause = s.cause ∧ t.opidx = s.opidx ∧ t.faultPc = s.faultPc ∧ t.faultValue = s.faultValue) ∧
    (t.rs.terminal = false → t.out = s.out ∧ t.inp.consumerAlive = s.inp.consumerAlive) ∧
    t.rb = s.rb ∧ t.cfg = s.cfg ∧ t.outDrop = s.outDrop ∧ t.out.q = s.out.q ∧
    t.inp.closed = s.inp.closed ∧ t.out.consumerAlive = s.out.consumerAlive

/-- The frame of the instructions that store nothing, `OUT`, `JT`, `JF`, `ARB` and `HLT` (rule R66): every cell and the extent stay;
`rb` stays but for `ARB`, the output queue and `out_drop` but for `OUT`; the fault report changes by a fault only. -/
def Obligations.NonStoringFrame : Prop :=
  ∀ (a b : Param) (i : Instr) (s t : State), i ∈ [Instr.output a, .jt a b, .jf a b, .arb a, .hlt] → exec i s = .next t →
    (∀ c, t.memRead c = s.memRead c) ∧ t.extent = s.extent ∧
    ((∀ p, i ≠ .arb p) → t.rb = s.rb) ∧
    ((∀ p, i ≠ .output p) → t.out.q = s.out.q ∧ t.outDrop = s.outDrop) ∧
    (t.rs ≠ .faulted → t.cause = s.cause ∧ t.opidx = s.opidx ∧ t.faultPc = s.faultPc ∧ t.faultValue = s.faultValue) ∧
    (t.rs.terminal = false → t.inp = s.inp ∧ t.out.closed = s.out.closed) ∧
    t.cfg = s.cfg ∧ t.inp.q = s.inp.q ∧ t.inp.closed = s.inp.closed ∧ t.out.consumerAlive = s.out.consumerAlive

/-! ## The step -/

/-- Rules R100 and R105: when the cells at `pc` decode, the step is the instruction's meaning. That the step first clears the last
step's `out_drop` is the model's reading of rule R151's "for that step" (log entry 6). -/
def Obligations.StepRunsDecodedInstruction : Prop :=
  ∀ (s : State) (i : Instr), s.rs.terminal = false → decode s.fetchCells = .ok i →
    step s = exec i { s with outDrop := none }

/-- Rules R75, R90 and R107: an instruction whose canonical cells stand in memory at `pc`, below the extent, is the one that
runs. That the step first clears the last step's `out_drop` is the model's reading of rule R151's "for that step" (log
entry 6). -/
def Obligations.StepRunsInstructionInMemory : Prop :=
  ∀ (s : State) (i : Instr), s.rs.terminal = false → i.wellFormed = true → s.pc + i.size ≤ s.extent →
    (∀ k, k < i.size → (encode i)[k]? = some (s.memRead (s.pc + k))) → step s = exec i { s with outDrop := none }

/-- Rules R102 and R301: too few cells remain, for the instruction word or for a legal opcode's operands. That the
last step's `out_drop` is gone is the model's reading of rule R151's "for that step" (log entry 6). -/
def Obligations.MissingParamsIsRaised : Prop :=
  ∀ (s : State), s.rs.terminal = false →
    (s.extent ≤ s.pc → step s = .next ({ s with outDrop := none }.raise ⟨.missingParams, 0, 1⟩)) ∧
    (∀ row ∈ opcodeTable, s.pc < s.extent → 0 ≤ s.memRead s.pc → s.memRead s.pc % 100 = row.code →
      s.extent < s.pc + (row.roles.length + 1) →
      step s = .next ({ s with outDrop := none }.raise ⟨.missingParams, 0, row.roles.length + 1⟩))

/-- Rules R101 and R302: a negative word records its truncated remainder by 100, in [-99, 0]; any other word whose opcode is not
in the table records the opcode. That the last step's `out_drop` is gone is the model's reading of rule R151's "for that
step" (log entry 6). -/
def Obligations.InvalidOpcodeIsRaised : Prop :=
  ∀ (s : State), s.rs.terminal = false → s.pc < s.extent →
    (s.memRead s.pc < 0 → -99 ≤ (s.memRead s.pc).tmod 100 ∧ (s.memRead s.pc).tmod 100 ≤ 0 ∧
      step s = .next ({ s with outDrop := none }.raise ⟨.invalidOpcode, 0, (s.memRead s.pc).tmod 100⟩)) ∧
    (0 ≤ s.memRead s.pc → s.memRead s.pc % 100 ∉ [1, 2, 3, 4, 5, 6, 7, 8, 9, 99] →
      step s = .next ({ s with outDrop := none }.raise ⟨.invalidOpcode, 0, s.memRead s.pc % 100⟩))

/-- Rule R311: a step that faults changes `RS`, the fault report and the closure flags and nothing else, `pc` staying at the
instruction that faulted, and raises no `out_drop`. That the step before's `out_drop` is cleared as well is the model's
reading of rule R151's "for that step" (log entry 6). -/
def Obligations.FaultEntryIsPrecise : Prop :=
  ∀ (s t : State), s.rs.terminal = false → step s = .next t → t.rs = .faulted →
    ∃ r : Raise,
      t = { s with
            rs := .faulted
            cause := some r.cause
            opidx := r.opidx
            faultPc := s.pc
            faultValue := r.value
            out := { s.out with closed := true }
            inp := { s.inp with consumerAlive := false }
            outDrop := none } ∧
      t.status = BitVec.ofNat 64 (4 + 2 ^ 8 * r.cause.code + 2 ^ 12 * r.opidx.val)

/-- Rule R309: with `OVERFLOW_MODE = fault`, an `ADD`, `MUL` or `ARB` whose exact result is not a word raises `ArithOverflow` with its
opcode, and a Relative operand whose `rb + raw` is not a word raises it with its index and raw value; with
`OVERFLOW_MODE = wrap` no step ever raises it. -/
def Obligations.ArithOverflowOnlyInFaultMode : Prop :=
  (∀ (a b d : Param) (s : State) (x y : Int) (dst : Nat), s.cfg.overflowMode = .fault →
    s.readOperand 1 a = .ok x → s.readOperand 2 b = .ok y → s.destAddress 3 d = .ok dst →
    (isWord s.cfg.wordBits (x + y) = false → exec (.add a b d) s = .next (s.raise ⟨.arithOverflow, 0, 1⟩)) ∧
    (isWord s.cfg.wordBits (x * y) = false → exec (.mul a b d) s = .next (s.raise ⟨.arithOverflow, 0, 2⟩))) ∧
  (∀ (a : Param) (s : State) (x : Int), s.cfg.overflowMode = .fault → s.readOperand 1 a = .ok x →
    isWord s.cfg.wordBits (s.rb + x) = false → exec (.arb a) s = .next (s.raise ⟨.arithOverflow, 0, 9⟩)) ∧
  (∀ (s : State) (i : Fin 4) (r : Int), s.cfg.overflowMode = .fault → isWord s.cfg.wordBits (s.rb + r) = false →
    s.readOperand i ⟨.relative, r⟩ = .error ⟨.arithOverflow, i, r⟩ ∧
    s.destAddress i ⟨.relative, r⟩ = .error ⟨.arithOverflow, i, r⟩) ∧
  (∀ (s t : State), s.cfg.overflowMode = .wrap → s.cause ≠ some .arithOverflow → step s = .next t →
    t.cause ≠ some .arithOverflow)

/-- Rules R100 and R310: the step is the flat transcription of the controller step, in which the first check that fails, in the
order of rule R310, is the one fault raised, and the execute rule runs only where none fails. That a terminal state steps to
itself (log entry 7) and that a step first clears the last step's `out_drop` (log entry 6) are the model's choices. -/
def Obligations.StepIsTheFlatControllerStep : Prop :=
  ∀ (s : State), step s = .next (Reference.stepState s)

/-- Rule R39: a terminal run state is left by no step; that the step answers the same state is the model's form of "no step runs"
(log entry 7). -/
def Obligations.TerminalStatesPersist : Prop :=
  ∀ (s : State), s.rs.terminal = true → step s = .next s

/-- Rule R16: a step always ends in one of the ways the spec gives, so in no state does the model stop or refuse. The answer of
`step` in a terminal state (log entry 7) and of `exec` on a term no word decodes to (log entry 12) are the model's
choices. -/
def Obligations.StepAlwaysAnswers : Prop :=
  (∀ (i : Instr) (s : State), ∃ t, exec i s = .next t) ∧ ∀ (s : State), ∃ t, step s = .next t

/-- Rules R39, R156, R157 and R201: from a state that is not terminal, which instruction and FIFO condition leads to which run
state. -/
def Obligations.RunStateTransitions : Prop :=
  ∀ (s t : State), s.rs.terminal = false → step s = .next t →
    (t.rs = .halted ↔ decode s.fetchCells = .ok .hlt) ∧
    (t.rs = .inputEnded → (∃ d, decode s.fetchCells = .ok (.input d)) ∧ s.inp.q = [] ∧ s.inp.closed = true) ∧
    (t.rs = .waitIn → (∃ d, decode s.fetchCells = .ok (.input d)) ∧ s.inp.q = [] ∧ s.inp.closed = false) ∧
    (t.rs = .waitOut → (∃ a, decode s.fetchCells = .ok (.output a)) ∧ s.out.consumerAlive = true ∧
      s.out.depth ≤ s.out.q.length) ∧
    (∀ e, decode s.fetchCells = .error e → t.rs = .faulted)

/-- Rule R158: a waiting step sets `RS` and changes nothing else the rule names, and the next attempt waits again while no other
agent acts. That the last step's `out_drop` is cleared is the model's reading of rule R151's "for that step" (log
entry 6). -/
def Obligations.WaitChangesOnlyRunState : Prop :=
  ∀ (s t : State), s.rs.terminal = false → step s = .next t → t.rs.waiting = true →
    t = { s with rs := t.rs, outDrop := none } ∧ step t = .next t

/-- Rules R156, R157 and R323: a wait for input ends by a push, whose value is popped and written, or by a close, which ends the
run; a wait for room ends by a pop, after which the operand's value is pushed, or by an abandon, after which it is dropped.
The last step's `out_drop` is gone by log entry 6. -/
def Obligations.WaitEndsByTheOtherAgent : Prop :=
  ∀ (s t : State), CoreInv s → s.rs.terminal = false → step s = .next t →
    (t.rs = .waitIn → ∃ d dst, decode s.fetchCells = .ok (.input d) ∧ s.destAddress 1 d = .ok dst ∧
      (∀ v u, t.env (.push v) = some u →
        step u = .next { s.memWrite dst v with pc := s.pc + 2, rs := .running, outDrop := none }) ∧
      (∀ u, t.env .close = some u →
        step u = .next
          { s with
            rs := .inputEnded
            out := { s.out with closed := true }
            inp := { s.inp with closed := true, consumerAlive := false }
            outDrop := none })) ∧
    (t.rs = .waitOut → ∃ a v, decode s.fetchCells = .ok (.output a) ∧ s.readOperand 1 a = .ok v ∧
      (∀ u, t.env .pop = some u →
        step u = .next
          { s with
            out := { s.out with q := s.out.q.tail ++ [v] }
            pc := s.pc + 2
            rs := .running
            outDrop := none }) ∧
      (∀ u, t.env .abandon = some u →
        step u = .next
          { s with
            out := { s.out with consumerAlive := false }
            pc := s.pc + 2
            rs := .running
            outDrop := some v }))

/-! ## Whole-machine rules -/

/-- Rules R34 and R200: "adjusted only by the "adjust relative base" instruction". -/
def Obligations.OnlyArbWritesRelativeBase : Prop :=
  ∀ (s t : State), step s = .next t → t.rb ≠ s.rb → ∃ a, decode s.fetchCells = .ok (.arb a)

/-- Rule R65: no step decreases the extent, so no cell is ever deallocated, and writing 0 at or above the extent grows it. -/
def Obligations.ExtentNeverDecreases : Prop :=
  (∀ (s t : State), step s = .next t → s.extent ≤ t.extent) ∧
  ∀ (s : State) (a : Nat), s.extent ≤ a → (s.memWrite a 0).extent = a + 1

/-- Rule R66: a step writes at most one cell, and only `ADD`, `MUL`, `IN`, `LT` and `EQ` write one. -/
def Obligations.AtMostOneCellIsWritten : Prop :=
  ∀ (s t : State), s.mem.wf = true → s.mem.below s.extent = true → step s = .next t →
    (∀ x y, t.memRead x ≠ s.memRead x → t.memRead y ≠ s.memRead y → x = y) ∧
    (∀ x, t.memRead x ≠ s.memRead x →
      ∃ i, decode s.fetchCells = .ok i ∧ i.opcode ∈ [1, 2, 3, 7, 8])

/-- Rules R67, R150 and R151: only `IN` pops, and only its FIFO's head; only `OUT` pushes, and only one value; the core touches
neither its producer's nor its consumer's flag, nor a depth. -/
def Obligations.OnlyInPopsAndOnlyOutPushes : Prop :=
  ∀ (s t : State), step s = .next t →
    (t.inp.q ≠ s.inp.q → (∃ d, decode s.fetchCells = .ok (.input d)) ∧ ∃ v, s.inp.q = v :: t.inp.q) ∧
    (t.out.q ≠ s.out.q → (∃ a, decode s.fetchCells = .ok (.output a)) ∧ s.out.consumerAlive = true ∧
      ∃ v, t.out.q = s.out.q ++ [v]) ∧
    t.inp.closed = s.inp.closed ∧ t.out.consumerAlive = s.out.consumerAlive ∧
    t.inp.depth = s.inp.depth ∧ t.out.depth = s.out.depth ∧ t.cfg = s.cfg

/-- Rule R159: the step that enters a terminal state closes the output FIFO and abandons the input FIFO, and while the run state
is not terminal neither is so. -/
def Obligations.EndingClosesBothEndpoints : Prop :=
  ∀ (s t : State), CoreInv s → s.rs.terminal = false → step s = .next t →
    (t.rs.terminal = true → t.out.closed = true ∧ t.inp.consumerAlive = false) ∧
    (t.rs.terminal = false → t.out.closed = false ∧ t.inp.consumerAlive = true)

/-- The invariant is kept by every step, from every state that meets it (rules R6, R8, R33, R37, R40, R41, R152, R159
and R311); that a terminal state steps to itself is log entry 7, `pc` at `2^(W-1)` log entry 4, the life of `out_drop` log
entry 6. -/
def Obligations.StepKeepsInvariant : Prop :=
  ∀ (s t : State), CoreInv s → step s = .next t → CoreInv t

/-- The invariant holds after reset, with the parameters and FIFOs the model chose (log entries 3 and 5) and no
`out_drop` at reset (log entry 6). -/
def Obligations.ResetMeetsInvariant : Prop := CoreInv State.reset

/-- Rule R314: an environment action changes a FIFO and nothing else of a core, and keeps the invariant. Which actions are
allowed is rule R152 as log entry 10 reads it. -/
def Obligations.EnvironmentTouchesOnlyFifos : Prop :=
  ∀ (s t : State) (e : EnvEvent), s.env e = some t →
    t = { s with inp := t.inp, out := t.out } ∧ (CoreInv s → CoreInv t)

/-! ## Reset, load and the ports -/

/-- Rule R47: the state after a reset that loads an accepted image, for every image, parameters and FIFOs, with the two FIFOs of
rule R400 connected as they were brought; and the model's invariant holds of it, which rests on `out_drop` being none at
reset, a value no rule gives (log entry 6, the model's choice). -/
def Obligations.LoadGivesResetValues : Prop :=
  ∀ (c : Config) (r : LoadRequest), c.legal = true → r.accepted c = true → r.legal c = true →
    (∀ (a : Nat) (x : Int), r.image[a]? = some x → (State.resetWith c r).memRead a = x) ∧
    (∀ a, r.image.length ≤ a → (State.resetWith c r).memRead a = 0) ∧
    (State.resetWith c r).extent = r.extent ∧ (State.resetWith c r).pc = 0 ∧ (State.resetWith c r).rb = 0 ∧
    (State.resetWith c r).rs = .running ∧ (State.resetWith c r).status = 0 ∧ (State.resetWith c r).faultPc = 0 ∧
    (State.resetWith c r).faultValue = 0 ∧ (State.resetWith c r).inp.consumerAlive = true ∧
    (State.resetWith c r).out.closed = false ∧
    (State.resetWith c r).inp.q = r.inFifo.q ∧ (State.resetWith c r).inp.depth = r.inFifo.depth ∧
    (State.resetWith c r).inp.closed = r.inFifo.closed ∧
    (State.resetWith c r).out.q = r.outFifo.q ∧ (State.resetWith c r).out.depth = r.outFifo.depth ∧
    (State.resetWith c r).out.consumerAlive = r.outFifo.consumerAlive ∧
    (State.resetWith c r).cfg = c ∧ CoreInv (State.resetWith c r)

/-- Rule R47 at `State.reset`, the reset that loads the empty image: every cell 0, the registers 0, `RS = RUNNING`, `STATUS` 0, the
endpoints open. -/
def Obligations.ResetValues : Prop :=
  (∀ a, State.reset.memRead a = 0) ∧ State.reset.extent = 0 ∧ State.reset.pc = 0 ∧ State.reset.rb = 0 ∧
  State.reset.rs = .running ∧ State.reset.status = 0 ∧ State.reset.faultPc = 0 ∧ State.reset.faultValue = 0 ∧
  State.reset.inp.consumerAlive = true ∧ State.reset.out.closed = false

/-- Rules R400 to R402: a refused image leaves the block in reset with no fault reported, an accepted one is loaded from any run
state with an extent of rule R9 and FIFOs of rule R152, and with no others; nothing changes before the release, and a
released block steps. The phase beside the core (log entry 9), that an extent or a FIFO outside those rules makes no load
rather than a refusal (log entry 18) and that a refusal keeps the core's state (log entry 19) are the model's choices. -/
def Obligations.LoadRefusesOrResets : Prop :=
  ∀ (b : Block) (r : LoadRequest),
    (r.accepted b.core.cfg = false →
      b.load r = some ⟨.inReset, b.core⟩ ∧ (⟨.inReset, b.core⟩ : Block).release = ⟨.inReset, b.core⟩ ∧
      (⟨.inReset, b.core⟩ : Block).step = ⟨.inReset, b.core⟩) ∧
    (r.accepted b.core.cfg = true → r.legal b.core.cfg = true →
      b.load r = some ⟨.loaded, State.resetWith b.core.cfg r⟩) ∧
    (r.accepted b.core.cfg = true → r.legal b.core.cfg = false → b.load r = none) ∧
    (∀ s : State, (⟨.loaded, s⟩ : Block).step = ⟨.loaded, s⟩ ∧ (⟨.loaded, s⟩ : Block).release = ⟨.released, s⟩) ∧
    (∀ t, b.phase = .released → step b.core = .next t → b.step = ⟨.released, t⟩ ∧ b.release = b)

/-- Rules R38, R40 and R300: the fields of `STATUS` with the codes of the run states and of the causes, its reserved bits 0, and
`CAUSE` and `OPIDX` 0 outside `FAULTED` where the invariant holds. -/
def Obligations.StatusWordFields : Prop :=
  ∀ (s : State),
    (∀ p ∈ [(RunState.running, 0), (.waitIn, 1), (.waitOut, 2), (.halted, 3), (.faulted, 4), (.inputEnded, 5)],
      s.rs = p.1 → statusRun s.status = p.2) ∧
    (∀ p ∈ [((none : Option Cause), 0), (some .missingParams, 1), (some .invalidOpcode, 2),
        (some .negativePositionalParam, 3), (some .invalidAddress, 4), (some .invalidMode, 5),
        (some .immediateDestination, 6), (some .negativeJumpTarget, 7), (some .capacityExceeded, 8),
        (some .arithOverflow, 9)],
      s.cause = p.1 → statusCause s.status = p.2) ∧
    statusOpidx s.status = BitVec.ofNat 2 s.opidx.val ∧
    s.status.extractLsb' 3 5 = 0 ∧ s.status.extractLsb' 14 50 = 0 ∧
    (CoreInv s → s.rs ≠ .faulted → statusCause s.status = 0 ∧ statusOpidx s.status = 0)

/-! ## FIFOs, determinism, networks -/

/-- Rule R153: through any run of a core among its environment's actions, what was popped and what is queued is what was queued
and supplied, in order; and while the consumer of the output FIFO is alive, what was delivered and what is queued is what
was queued and emitted, in order. That the queue of an abandoned input FIFO stays as it is is log entry
17, which environment actions are allowed log entry 10, and that a drop is read off a step's `out_drop` log entry 6. -/
def Obligations.FifosDeliverInOrder : Prop :=
  ∀ (es : List Event) (s t : State) (tr : Trace), runEvents es s = some (t, tr) →
    tr.popped ++ t.inp.q = s.inp.q ++ tr.supplied ∧
    (t.out.consumerAlive = true → tr.delivered ++ t.out.q = s.out.q ++ tr.emitted)

/-- Rule R328: two runs of a core to a terminal state, whatever the environments and schedules, that pop the same values emit
the same values, pushed or dropped, and end in the same state but for the FIFOs. Drops are read off a step's `out_drop`
(log entry 6), a terminal state steps to itself (log entry 7), and which environment actions are allowed is log entry
10. -/
def Obligations.OutputsAreDeterminedByPoppedInputs : Prop :=
  ∀ (es₁ es₂ : List Event) (s₁ s₂ t₁ t₂ : State) (tr₁ tr₂ : Trace), s₁.coreView = s₂.coreView →
    runEvents es₁ s₁ = some (t₁, tr₁) → runEvents es₂ s₂ = some (t₂, tr₂) →
    t₁.rs.terminal = true → t₂.rs.terminal = true → tr₁.popped = tr₂.popped →
    tr₁.emitted = tr₂.emitted ∧ t₁.coreView = t₂.coreView

/-- Rules R314, R317 and R324: a core's step changes no other core and no FIFO it holds no end of, and an environment action
changes no core. How a FIFO with both ends at one core is written back is log entry 11. -/
def Obligations.NetworkStepsAreLocal : Prop :=
  ∀ (n m : Network),
    (∀ k, n.step (.core k) = some m →
      (∀ j, j ≠ k → m.nodes[j]? = n.nodes[j]?) ∧
      (∀ d f, n.nodes[k]? = some d → f ≠ d.inIdx → f ≠ d.outIdx → m.fifos[f]? = n.fifos[f]?) ∧
      m.nodes.length = n.nodes.length ∧ m.fifos.length = n.fifos.length) ∧
    (∀ a, (∀ k, a ≠ .core k) → n.step a = some m → m.nodes = n.nodes)

/-- Rule R152: whatever an agent does, a core's reset and a new connection included, a FIFO keeps its depth and its bound, its
`closed` is never cleared and its `consumer_alive` never set again. Which ends a reset core may take is log entry 20. -/
def Obligations.FifoFlagsNeverReturn : Prop :=
  ∀ (n m : Network),
    ((∃ a, n.step a = some m) ∨ (∃ f, n.connect f = some m) ∨ (∃ k image extent i o, n.load k image extent i o = some m)) →
    ∀ (j : Nat) (x : Fifo), n.fifos[j]? = some x →
      ∃ y, m.fifos[j]? = some y ∧ y.depth = x.depth ∧ (x.closed = true → y.closed = true) ∧
        (y.consumerAlive = true → x.consumerAlive = true) ∧ (x.q.length ≤ x.depth → y.q.length ≤ y.depth)
end

