-- ==== Sys2Proof/Laws/State.lean ====
section
/-! SUPPORT. One lemma per field of `State` per update of it, so that no proof unfolds a record update. -/

namespace Sys2Proof.Machine.State

variable (s : State)

@[simp] theorem retire_cfg (n : Nat) : (s.retire n).cfg = s.cfg := rfl
@[simp] theorem retire_mem (n : Nat) : (s.retire n).mem = s.mem := rfl
@[simp] theorem retire_extent (n : Nat) : (s.retire n).extent = s.extent := rfl
@[simp] theorem retire_pc (n : Nat) : (s.retire n).pc = s.pc + n := rfl
@[simp] theorem retire_rb (n : Nat) : (s.retire n).rb = s.rb := rfl
@[simp] theorem retire_rs (n : Nat) : (s.retire n).rs = .running := rfl
@[simp] theorem retire_cause (n : Nat) : (s.retire n).cause = s.cause := rfl
@[simp] theorem retire_opidx (n : Nat) : (s.retire n).opidx = s.opidx := rfl
@[simp] theorem retire_faultPc (n : Nat) : (s.retire n).faultPc = s.faultPc := rfl
@[simp] theorem retire_faultValue (n : Nat) : (s.retire n).faultValue = s.faultValue := rfl
@[simp] theorem retire_inp (n : Nat) : (s.retire n).inp = s.inp := rfl
@[simp] theorem retire_out (n : Nat) : (s.retire n).out = s.out := rfl
@[simp] theorem retire_outDrop (n : Nat) : (s.retire n).outDrop = s.outDrop := rfl

@[simp] theorem jumpTo_cfg (n : Nat) : (s.jumpTo n).cfg = s.cfg := rfl
@[simp] theorem jumpTo_mem (n : Nat) : (s.jumpTo n).mem = s.mem := rfl
@[simp] theorem jumpTo_extent (n : Nat) : (s.jumpTo n).extent = s.extent := rfl
@[simp] theorem jumpTo_pc (n : Nat) : (s.jumpTo n).pc = n := rfl
@[simp] theorem jumpTo_rb (n : Nat) : (s.jumpTo n).rb = s.rb := rfl
@[simp] theorem jumpTo_rs (n : Nat) : (s.jumpTo n).rs = .running := rfl
@[simp] theorem jumpTo_cause (n : Nat) : (s.jumpTo n).cause = s.cause := rfl
@[simp] theorem jumpTo_opidx (n : Nat) : (s.jumpTo n).opidx = s.opidx := rfl
@[simp] theorem jumpTo_faultPc (n : Nat) : (s.jumpTo n).faultPc = s.faultPc := rfl
@[simp] theorem jumpTo_faultValue (n : Nat) : (s.jumpTo n).faultValue = s.faultValue := rfl
@[simp] theorem jumpTo_inp (n : Nat) : (s.jumpTo n).inp = s.inp := rfl
@[simp] theorem jumpTo_out (n : Nat) : (s.jumpTo n).out = s.out := rfl
@[simp] theorem jumpTo_outDrop (n : Nat) : (s.jumpTo n).outDrop = s.outDrop := rfl

@[simp] theorem wait_cfg (r : RunState) : (s.wait r).cfg = s.cfg := rfl
@[simp] theorem wait_mem (r : RunState) : (s.wait r).mem = s.mem := rfl
@[simp] theorem wait_extent (r : RunState) : (s.wait r).extent = s.extent := rfl
@[simp] theorem wait_pc (r : RunState) : (s.wait r).pc = s.pc := rfl
@[simp] theorem wait_rb (r : RunState) : (s.wait r).rb = s.rb := rfl
@[simp] theorem wait_rs (r : RunState) : (s.wait r).rs = r := rfl
@[simp] theorem wait_cause (r : RunState) : (s.wait r).cause = s.cause := rfl
@[simp] theorem wait_opidx (r : RunState) : (s.wait r).opidx = s.opidx := rfl
@[simp] theorem wait_faultPc (r : RunState) : (s.wait r).faultPc = s.faultPc := rfl
@[simp] theorem wait_faultValue (r : RunState) : (s.wait r).faultValue = s.faultValue := rfl
@[simp] theorem wait_inp (r : RunState) : (s.wait r).inp = s.inp := rfl
@[simp] theorem wait_out (r : RunState) : (s.wait r).out = s.out := rfl
@[simp] theorem wait_outDrop (r : RunState) : (s.wait r).outDrop = s.outDrop := rfl

@[simp] theorem terminate_cfg (r : RunState) : (s.terminate r).cfg = s.cfg := rfl
@[simp] theorem terminate_mem (r : RunState) : (s.terminate r).mem = s.mem := rfl
@[simp] theorem terminate_extent (r : RunState) : (s.terminate r).extent = s.extent := rfl
@[simp] theorem terminate_pc (r : RunState) : (s.terminate r).pc = s.pc := rfl
@[simp] theorem terminate_rb (r : RunState) : (s.terminate r).rb = s.rb := rfl
@[simp] theorem terminate_rs (r : RunState) : (s.terminate r).rs = r := rfl
@[simp] theorem terminate_cause (r : RunState) : (s.terminate r).cause = s.cause := rfl
@[simp] theorem terminate_opidx (r : RunState) : (s.terminate r).opidx = s.opidx := rfl
@[simp] theorem terminate_faultPc (r : RunState) : (s.terminate r).faultPc = s.faultPc := rfl
@[simp] theorem terminate_faultValue (r : RunState) : (s.terminate r).faultValue = s.faultValue := rfl
@[simp] theorem terminate_inp (r : RunState) : (s.terminate r).inp = s.inp.abandon := rfl
@[simp] theorem terminate_out (r : RunState) : (s.terminate r).out = s.out.close := rfl
@[simp] theorem terminate_outDrop (r : RunState) : (s.terminate r).outDrop = s.outDrop := rfl

@[simp] theorem raise_cfg (r : Raise) : (s.raise r).cfg = s.cfg := rfl
@[simp] theorem raise_mem (r : Raise) : (s.raise r).mem = s.mem := rfl
@[simp] theorem raise_extent (r : Raise) : (s.raise r).extent = s.extent := rfl
@[simp] theorem raise_pc (r : Raise) : (s.raise r).pc = s.pc := rfl
@[simp] theorem raise_rb (r : Raise) : (s.raise r).rb = s.rb := rfl
@[simp] theorem raise_rs (r : Raise) : (s.raise r).rs = .faulted := rfl
@[simp] theorem raise_cause (r : Raise) : (s.raise r).cause = some r.cause := rfl
@[simp] theorem raise_opidx (r : Raise) : (s.raise r).opidx = r.opidx := rfl
@[simp] theorem raise_faultPc (r : Raise) : (s.raise r).faultPc = s.pc := rfl
@[simp] theorem raise_faultValue (r : Raise) : (s.raise r).faultValue = r.value := rfl
@[simp] theorem raise_inp (r : Raise) : (s.raise r).inp = s.inp.abandon := rfl
@[simp] theorem raise_out (r : Raise) : (s.raise r).out = s.out.close := rfl
@[simp] theorem raise_outDrop (r : Raise) : (s.raise r).outDrop = s.outDrop := rfl

@[simp] theorem beginStep_cfg : s.beginStep.cfg = s.cfg := rfl
@[simp] theorem beginStep_mem : s.beginStep.mem = s.mem := rfl
@[simp] theorem beginStep_extent : s.beginStep.extent = s.extent := rfl
@[simp] theorem beginStep_pc : s.beginStep.pc = s.pc := rfl
@[simp] theorem beginStep_rb : s.beginStep.rb = s.rb := rfl
@[simp] theorem beginStep_rs : s.beginStep.rs = s.rs := rfl
@[simp] theorem beginStep_cause : s.beginStep.cause = s.cause := rfl
@[simp] theorem beginStep_opidx : s.beginStep.opidx = s.opidx := rfl
@[simp] theorem beginStep_faultPc : s.beginStep.faultPc = s.faultPc := rfl
@[simp] theorem beginStep_faultValue : s.beginStep.faultValue = s.faultValue := rfl
@[simp] theorem beginStep_inp : s.beginStep.inp = s.inp := rfl
@[simp] theorem beginStep_out : s.beginStep.out = s.out := rfl
@[simp] theorem beginStep_outDrop : s.beginStep.outDrop = none := rfl

@[simp] theorem memWrite_cfg (a : Nat) (v : Int) : (s.memWrite a v).cfg = s.cfg := rfl
@[simp] theorem memWrite_mem (a : Nat) (v : Int) : (s.memWrite a v).mem = s.mem.set a v := rfl
@[simp] theorem memWrite_extent (a : Nat) (v : Int) : (s.memWrite a v).extent = if s.extent ≤ a then a + 1 else s.extent := rfl
@[simp] theorem memWrite_pc (a : Nat) (v : Int) : (s.memWrite a v).pc = s.pc := rfl
@[simp] theorem memWrite_rb (a : Nat) (v : Int) : (s.memWrite a v).rb = s.rb := rfl
@[simp] theorem memWrite_rs (a : Nat) (v : Int) : (s.memWrite a v).rs = s.rs := rfl
@[simp] theorem memWrite_cause (a : Nat) (v : Int) : (s.memWrite a v).cause = s.cause := rfl
@[simp] theorem memWrite_opidx (a : Nat) (v : Int) : (s.memWrite a v).opidx = s.opidx := rfl
@[simp] theorem memWrite_faultPc (a : Nat) (v : Int) : (s.memWrite a v).faultPc = s.faultPc := rfl
@[simp] theorem memWrite_faultValue (a : Nat) (v : Int) : (s.memWrite a v).faultValue = s.faultValue := rfl
@[simp] theorem memWrite_inp (a : Nat) (v : Int) : (s.memWrite a v).inp = s.inp := rfl
@[simp] theorem memWrite_out (a : Nat) (v : Int) : (s.memWrite a v).out = s.out := rfl
@[simp] theorem memWrite_outDrop (a : Nat) (v : Int) : (s.memWrite a v).outDrop = s.outDrop := rfl

end Sys2Proof.Machine.State

namespace Sys2Proof.Machine.Fifo

variable (f : Fifo)

@[simp] theorem push_depth (v : Int) : (f.push v).depth = f.depth := rfl
@[simp] theorem push_q (v : Int) : (f.push v).q = f.q ++ [v] := rfl
@[simp] theorem push_closed (v : Int) : (f.push v).closed = f.closed := rfl
@[simp] theorem push_consumerAlive (v : Int) : (f.push v).consumerAlive = f.consumerAlive := rfl

@[simp] theorem pop_depth : f.pop.depth = f.depth := rfl
@[simp] theorem pop_q : f.pop.q = f.q.tail := rfl
@[simp] theorem pop_closed : f.pop.closed = f.closed := rfl
@[simp] theorem pop_consumerAlive : f.pop.consumerAlive = f.consumerAlive := rfl

@[simp] theorem close_depth : f.close.depth = f.depth := rfl
@[simp] theorem close_q : f.close.q = f.q := rfl
@[simp] theorem close_closed : f.close.closed = true := rfl
@[simp] theorem close_consumerAlive : f.close.consumerAlive = f.consumerAlive := rfl

@[simp] theorem abandon_depth : f.abandon.depth = f.depth := rfl
@[simp] theorem abandon_q : f.abandon.q = f.q := rfl
@[simp] theorem abandon_closed : f.abandon.closed = f.closed := rfl
@[simp] theorem abandon_consumerAlive : f.abandon.consumerAlive = false := rfl

end Sys2Proof.Machine.Fifo
end

