-- ==== Sys2Proof/Laws/Memory.lean ====
section
/-! SUPPORT. The laws of memory: a read after a write, and that every operation keeps the canonical form. -/

namespace Sys2Proof.Machine

namespace Mem

theorem wfFrom_mono {m : Mem} {j k : Nat} (hjk : j ≤ k) (h : m.wfFrom k = true) : m.wfFrom j = true := by
  cases m with
  | nil => rfl
  | cons c t =>
    obtain ⟨a, v⟩ := c
    simp only [wfFrom, Bool.and_eq_true, decide_eq_true_eq] at h ⊢
    exact ⟨⟨by omega, h.1.2⟩, h.2⟩

/-- Below its first address a canonical memory reads 0. -/
theorem get_of_lt {m : Mem} {n a : Nat} (h : m.wfFrom n = true) (ha : a < n) : m.get a = 0 := by
  induction m generalizing n with
  | nil => rfl
  | cons c t ih =>
    obtain ⟨b, v⟩ := c
    simp only [wfFrom, Bool.and_eq_true, decide_eq_true_eq] at h
    have hb : b ≠ a := by omega
    simp [get, hb, ih h.2 (by omega)]

/-- A read after a write. -/
theorem get_set {m : Mem} {n : Nat} (h : m.wfFrom n = true) (a : Nat) (v : Int) (b : Nat) :
    (m.set a v).get b = if b = a then v else m.get b := by
  induction m generalizing n with
  | nil =>
    by_cases hv : v = 0
    · simp [set, get, hv]
    · by_cases hb : b = a
      · simp [set, get, hv, hb]
      · simp [set, get, hv, hb, Ne.symm hb]
  | cons c t ih =>
    obtain ⟨d, w⟩ := c
    simp only [wfFrom, Bool.and_eq_true, decide_eq_true_eq] at h
    have htail : ∀ x, x ≤ d → get t x = 0 := fun x hx => get_of_lt h.2 (by omega)
    rcases Nat.lt_trichotomy a d with hlt | heq | hgt
    · by_cases hv : v = 0
      · by_cases hb : b = a
        · subst hb
          have hd : d ≠ b := by omega
          simp [set, get, hlt, hv, hd, htail b (by omega)]
        · simp [set, hlt, hv, hb]
      · by_cases hb : b = a
        · subst hb; simp [set, get, hlt, hv]
        · simp [set, get, hlt, hv, hb, Ne.symm hb]
    · subst heq
      by_cases hv : v = 0
      · by_cases hb : b = a
        · subst hb; simp [set, hv, htail b (by omega)]
        · simp [set, get, hv, hb, Ne.symm hb]
      · by_cases hb : b = a
        · subst hb; simp [set, get, hv]
        · simp [set, get, hv, hb, Ne.symm hb]
    · have h1 : ¬ a < d := by omega
      have h2 : a ≠ d := by omega
      by_cases hb : d = b
      · subst hb; simp [set, get, h1, h2, Ne.symm h2]
      · simp [set, get, h1, h2, hb, ih h.2]

theorem wfFrom_set {m : Mem} {n a : Nat} (h : m.wfFrom n = true) (ha : n ≤ a) (v : Int) :
    (m.set a v).wfFrom n = true := by
  induction m generalizing n with
  | nil => by_cases hv : v = 0 <;> simp [set, wfFrom, hv, ha]
  | cons c t ih =>
    obtain ⟨d, w⟩ := c
    have h' := h
    simp only [wfFrom, Bool.and_eq_true, decide_eq_true_eq] at h
    rcases Nat.lt_trichotomy a d with hlt | heq | hgt
    · by_cases hv : v = 0
      · simpa [set, hlt, hv] using h'
      · simpa [set, hlt, hv, wfFrom, ha, h.2, Nat.succ_le_of_lt hlt] using h.1.2
    · subst heq
      by_cases hv : v = 0
      · simpa [set, hv] using wfFrom_mono (by omega) h.2
      · simp [set, hv, wfFrom, ha, h.2]
    · have h1 : ¬ a < d := by omega
      have h2 : a ≠ d := by omega
      simpa [set, h1, h2, wfFrom, h.1.1, ih h.2 (by omega)] using h.1.2

/-- Writing a cell keeps the canonical form. -/
theorem wf_set {m : Mem} (h : m.wf = true) (a : Nat) (v : Int) : (m.set a v).wf = true :=
  wfFrom_set h (Nat.zero_le a) v

theorem below_set {m : Mem} {n a : Nat} (h : m.below n = true) (ha : a < n) (v : Int) :
    (m.set a v).below n = true := by
  induction m with
  | nil => by_cases hv : v = 0 <;> simp [set, below, hv, ha]
  | cons c t ih =>
    obtain ⟨d, w⟩ := c
    simp only [below, List.all_cons, Bool.and_eq_true, decide_eq_true_eq] at h ih ⊢
    simp only [set]
    split
    · split <;> simp [h.1, h.2, ha]
    · split
      · split <;> simp [h.2, ha]
      · simp [h.1, ih h.2]

theorem below_mono {m : Mem} {j k : Nat} (hjk : j ≤ k) (h : m.below j = true) : m.below k = true := by
  simp only [below, List.all_eq_true, decide_eq_true_eq] at h ⊢
  exact fun c hc => Nat.lt_of_lt_of_le (h c hc) hjk

/-- A memory whose listed addresses lie below `n` reads 0 from `n` up. -/
theorem get_of_below {m : Mem} {n a : Nat} (h : m.below n = true) (ha : n ≤ a) : m.get a = 0 := by
  induction m with
  | nil => rfl
  | cons c t ih =>
    obtain ⟨b, v⟩ := c
    simp only [below, List.all_cons, Bool.and_eq_true, decide_eq_true_eq] at h ih
    have hb : b ≠ a := by omega
    simp [get, hb, ih h.2]

theorem wfFrom_ofWords (a : Nat) (ws : List Int) : (ofWords a ws).wfFrom a = true := by
  induction ws generalizing a with
  | nil => rfl
  | cons w t ih =>
    by_cases hw : w = 0
    · simpa [ofWords, hw] using wfFrom_mono (Nat.le_succ a) (ih (a + 1))
    · simp [ofWords, hw, wfFrom, ih (a + 1)]

theorem below_ofWords (a : Nat) (ws : List Int) : (ofWords a ws).below (a + ws.length) = true := by
  induction ws generalizing a with
  | nil => rfl
  | cons w t ih =>
    have h := ih (a + 1)
    have e : a + 1 + t.length = a + (w :: t).length := by simp; omega
    rw [e] at h
    by_cases hw : w = 0
    · simpa [ofWords, hw] using h
    · have e' : ofWords a (w :: t) = (a, w) :: ofWords (a + 1) t := by simp [ofWords, hw]
      have ha : a < a + (w :: t).length := by simp
      rw [e', below, List.all_cons, ← below, h, decide_eq_true ha]
      rfl

/-- The cells of a loaded image (rule R400). -/
theorem get_ofWords (a : Nat) (ws : List Int) (b : Nat) :
    (ofWords a ws).get b = if a ≤ b then ws.getD (b - a) 0 else 0 := by
  induction ws generalizing a with
  | nil => simp [ofWords, get]
  | cons w t ih =>
    rcases Nat.lt_trichotomy b a with hlt | heq | hgt
    · have h1 : ¬ a ≤ b := by omega
      have h2 : ¬ a + 1 ≤ b := by omega
      have h3 : a ≠ b := by omega
      by_cases hw : w = 0 <;> simp [ofWords, hw, get, ih, h1, h2, h3]
    · subst heq
      by_cases hw : w = 0 <;> simp [ofWords, hw, get, ih]
    · have h1 : a ≤ b := by omega
      have h2 : a + 1 ≤ b := by omega
      have h3 : a ≠ b := by omega
      have h4 : b - a = (b - (a + 1)) + 1 := by omega
      by_cases hw : w = 0 <;> simp [ofWords, hw, get, ih, h1, h2, h3, h4]

end Mem

namespace State

/-- A read after a write, in a memory in canonical form that lists nothing from the extent up. -/
theorem memRead_memWrite {s : State} (hwf : s.mem.wf = true) (hb : s.mem.below s.extent = true) (a : Nat) (v : Int)
    (b : Nat) : (s.memWrite a v).memRead b = if b = a then v else s.memRead b := by
  simp only [memRead, memWrite_mem, memWrite_extent, Mem.get_set hwf]
  by_cases hba : b = a
  · subst hba
    split <;> split <;> simp_all
  · simp only [hba, if_false]
    by_cases hlt : b < s.extent
    · have : b < if s.extent ≤ a then a + 1 else s.extent := by split <;> omega
      simp [hlt, this]
    · rw [Mem.get_of_below hb (by omega)]; simp

/-- A read depends on memory and the extent only. -/
theorem memRead_congr {s t : State} (hm : t.mem = s.mem) (he : t.extent = s.extent) (a : Nat) :
    t.memRead a = s.memRead a := by
  simp [memRead, hm, he]

variable (s : State) (c : Nat)

@[simp] theorem memRead_retire (n : Nat) : (s.retire n).memRead c = s.memRead c := rfl
@[simp] theorem memRead_jumpTo (n : Nat) : (s.jumpTo n).memRead c = s.memRead c := rfl
@[simp] theorem memRead_wait (r : RunState) : (s.wait r).memRead c = s.memRead c := rfl
@[simp] theorem memRead_terminate (r : RunState) : (s.terminate r).memRead c = s.memRead c := rfl
@[simp] theorem memRead_raise (r : Raise) : (s.raise r).memRead c = s.memRead c := rfl
@[simp] theorem memRead_beginStep : s.beginStep.memRead c = s.memRead c := rfl
@[simp] theorem memRead_withInp (f : Fifo) : { s with inp := f }.memRead c = s.memRead c := rfl
@[simp] theorem memRead_withOut (f : Fifo) : { s with out := f }.memRead c = s.memRead c := rfl
@[simp] theorem memRead_withOutDrop (v : Option Int) : { s with outDrop := v }.memRead c = s.memRead c := rfl
@[simp] theorem memRead_withRb (v : Int) : { s with rb := v }.memRead c = s.memRead c := rfl

end State

end Sys2Proof.Machine
end

