-- ==== Sys2Proof/Laws/Operands.lean ====
section
/-! SUPPORT. What the resolver and the ALU answer. -/

namespace Sys2Proof.Machine

/-- The resolver's answers chained: the first error, or the second answer on the first's value. -/
@[simp] theorem bind_ok {ε α β : Type} (x : α) (f : α → Except ε β) : (Except.ok x >>= f) = f x := rfl

@[simp] theorem bind_error {ε α β : Type} (e : ε) (f : α → Except ε β) :
    ((Except.error e : Except ε α) >>= f) = Except.error e := rfl

@[simp] theorem pure_eq_ok {ε α : Type} (x : α) : (pure x : Except ε α) = Except.ok x := rfl

theorem bind_eq_ok {ε α β : Type} {x : Except ε α} {f : α → Except ε β} {b : β} :
    (x >>= f) = .ok b ↔ ∃ a, x = .ok a ∧ f a = .ok b := by
  cases x <;> simp

/-- An exact result narrowed: reduced where overflow wraps, itself where it faults and is a word, else nothing. -/
theorem narrow_wrap {c : Config} (h : c.overflowMode = .wrap) (x : Int) : narrow c x = some (wrapW c.wordBits x) := by
  simp [narrow, h]

theorem narrow_fits {c : Config} {x : Int} (h : c.overflowMode = .fault) (hx : isWord c.wordBits x = true) :
    narrow c x = some x := by
  simp [narrow, h, hx]

theorem narrow_overflow {c : Config} {x : Int} (h : c.overflowMode = .fault) (hx : isWord c.wordBits x = false) :
    narrow c x = none := by
  simp [narrow, h, hx]

theorem orOverflow_eq_ok {o : Option Int} {i : Fin 4} {v r : Int} (h : orOverflow o i v = .ok r) : o = some r := by
  cases o <;> simp_all [orOverflow]

theorem pow_wordBits {w : Nat} (hw : 1 ≤ w) : (2 : Int) ^ w = 2 * (addressBound w : Int) := by
  obtain ⟨n, rfl⟩ : ∃ n, w = n + 1 := ⟨w - 1, by omega⟩
  simp [addressBound, pow_succ, mul_comm]

theorem isWord_iff {w : Nat} {x : Int} :
    isWord w x = true ↔ -(addressBound w : Int) ≤ x ∧ x ≤ (addressBound w : Int) - 1 := by
  rw [isWord, Bool.and_eq_true, decide_eq_true_eq, decide_eq_true_eq]

/-- A residue is a word (rule R12). -/
theorem isWord_wrapW {w : Nat} (hw : 1 ≤ w) (x : Int) : isWord w (wrapW w x) = true := by
  have hp : ((2 ^ w : Nat) : Int) = 2 * (addressBound w : Int) := by push_cast; exact pow_wordBits hw
  have hpos : 0 < 2 ^ w := by positivity
  have h1 := Int.le_bmod (x := x) hpos
  have h2 := Int.bmod_lt (x := x) hpos
  rw [isWord_iff, wrapW]
  omega

/-- What narrowing gives is a word, in either mode. -/
theorem isWord_narrow {c : Config} {x : Int} {r : Int} (hw : 1 ≤ c.wordBits) (h : narrow c x = some r) :
    isWord c.wordBits r = true := by
  unfold narrow at h
  split at h
  · simp only [Option.some.injEq] at h
    subst h
    exact isWord_wrapW hw x
  · split at h
    · simp_all
    · simp at h

/-- A comparison's result is a word. -/
theorem isWord_truthWord {w : Nat} (hw : 2 ≤ w) (c : Bool) : isWord w (truthWord c) = true := by
  have hb : 2 ≤ addressBound w := by
    have h : 2 ^ 1 ≤ 2 ^ (w - 1) := Nat.pow_le_pow_right (by omega) (by omega)
    simpa [addressBound] using h
  rw [isWord_iff]
  cases c <;> simp only [truthWord] <;> constructor <;> split <;> simp_all <;> omega

/-- A non-negative word is an address. -/
theorem toNat_lt_of_isWord {w : Nat} {x : Int} (h : isWord w x = true) : x.toNat < addressBound w := by
  have hb : 0 < addressBound w := by unfold addressBound; positivity
  rw [isWord_iff] at h
  omega

namespace State

/-- A Relative address whose sum is produced: the sum, or `InvalidAddress` where it is negative (rule R304). -/
theorem relativeAddress_of_narrow {s : State} {r ea : Int} (h : narrow s.cfg (s.rb + r) = some ea) (i : Fin 4) :
    s.relativeAddress i r = if ea < 0 then .error ⟨.invalidAddress, i, ea⟩ else .ok ea.toNat := by
  simp only [relativeAddress, addW, h, orOverflow, bind_ok]

/-- A Relative address whose sum is not a word, where that is a fault (rule R309). -/
theorem relativeAddress_of_overflow {s : State} {r : Int} (hm : s.cfg.overflowMode = .fault)
    (h : isWord s.cfg.wordBits (s.rb + r) = false) (i : Fin 4) :
    s.relativeAddress i r = .error ⟨.arithOverflow, i, r⟩ := by
  simp only [relativeAddress, addW, narrow_overflow hm h, orOverflow, bind_error]

/-- A destination that resolves lies below `MEM_CAPACITY` (rule R104). -/
theorem destAddress_lt {s : State} {i : Fin 4} {p : Param} {a : Nat} (h : s.destAddress i p = .ok a) :
    a < s.cfg.memCapacity := by
  have cap : ∀ ea, s.withinCapacity i ea = .ok a → a < s.cfg.memCapacity := by
    intro ea hea
    unfold withinCapacity at hea
    split at hea
    · simp at hea
    · simp at hea; omega
  unfold destAddress at h
  split at h
  · obtain ⟨ea, -, hea⟩ := bind_eq_ok.mp h; exact cap ea hea
  · simp at h
  · obtain ⟨ea, -, hea⟩ := bind_eq_ok.mp h; exact cap ea hea

/-- What a read operand supplies depends on the parameters, memory, the extent and the relative base only. -/
theorem readOperand_congr {s t : State} (hc : t.cfg = s.cfg) (hm : t.mem = s.mem) (he : t.extent = s.extent)
    (hr : t.rb = s.rb) (i : Fin 4) (p : Param) : t.readOperand i p = s.readOperand i p := by
  simp [readOperand, relativeAddress, hc, hr, funext (memRead_congr (s := s) (t := t) hm he)]

theorem destAddress_congr {s t : State} (hc : t.cfg = s.cfg) (hr : t.rb = s.rb) (i : Fin 4) (p : Param) :
    t.destAddress i p = s.destAddress i p := by
  have hw : t.withinCapacity i = s.withinCapacity i := by funext ea; simp [withinCapacity, hc]
  simp [destAddress, relativeAddress, hc, hr, hw]

end State

end Sys2Proof.Machine
end

