-- ==== Sys2Proof/Laws/Decode.lean ====
section
/-! SUPPORT. What the decoder's acceptance says, format by format, and that it asks for an instruction's cells only. -/

namespace Sys2Proof

open Sys2Proof.Machine (bind_eq_ok)

/-- A mode's digit names the mode. -/
@[simp] theorem modeOfDigit_digit (m : Mode) : modeOfDigit m.digit = some m := by cases m <;> rfl

theorem modeOfDigit_eq_some {d : Nat} {m : Mode} (h : modeOfDigit d = some m) : m.digit = d := by
  unfold modeOfDigit at h
  split at h <;> simp at h <;> subst h <;> rfl

/-- An operand that decodes has the cell's raw value and the digit's mode, and is well-formed in its role. -/
theorem decodeOperand_eq_ok {w : Nat} {i : Fin 4} {role : Role} {raw : Int} {p : Param}
    (h : decodeOperand w i role raw = .ok p) :
    p.raw = raw ∧ p.mode.digit = digit w (i.val + 1) ∧ p.wellFormed role = true := by
  unfold decodeOperand at h
  split at h
  · simp at h
  · split at h
    · simp at h
    · split at h
      · simp at h
      · simp only [Except.ok.injEq] at h
        subst h
        refine ⟨rfl, modeOfDigit_eq_some ‹_›, ?_⟩
        simp_all only [Param.wellFormed, Param.positionOk, Param.destOk, Bool.and_eq_true, Bool.not_eq_true',
          Bool.and_eq_false_iff, decide_eq_false_iff_not, not_and]
        exact ⟨by tauto, by tauto⟩

/-- A well-formed operand decodes from its own raw value under its own mode digit. -/
theorem decodeOperand_of_wellFormed {w : Nat} {i : Fin 4} {role : Role} {p : Param}
    (hd : digit w (i.val + 1) = p.mode.digit) (hw : p.wellFormed role = true) :
    decodeOperand w i role p.raw = .ok p := by
  simp only [Param.wellFormed, Param.positionOk, Param.destOk, Bool.and_eq_true, Bool.not_eq_true',
    Bool.and_eq_false_iff, decide_eq_false_iff_not] at hw
  simp only [decodeOperand, hd, modeOfDigit_digit]
  rw [if_neg (by tauto), if_neg (by tauto)]

theorem formatR_eq_ok {mk : Param → Instr} {w : Nat} {rest : List Int} {i : Instr} (h : formatR mk w rest = .ok i) :
    ∃ r t a, rest = r :: t ∧ decodeOperand w 1 .read r = .ok a ∧ i = mk a := by
  unfold formatR at h
  split at h
  · obtain ⟨a, ha, h⟩ := bind_eq_ok.mp h
    exact ⟨_, _, a, rfl, ha, by simpa [eq_comm] using h⟩
  · simp at h

theorem formatD_eq_ok {mk : Param → Instr} {w : Nat} {rest : List Int} {i : Instr} (h : formatD mk w rest = .ok i) :
    ∃ r t d, rest = r :: t ∧ decodeOperand w 1 .dest r = .ok d ∧ i = mk d := by
  unfold formatD at h
  split at h
  · obtain ⟨d, hd, h⟩ := bind_eq_ok.mp h
    exact ⟨_, _, d, rfl, hd, by simpa [eq_comm] using h⟩
  · simp at h

theorem formatRR_eq_ok {mk : Param → Param → Instr} {w : Nat} {rest : List Int} {i : Instr}
    (h : formatRR mk w rest = .ok i) :
    ∃ r₁ r₂ t a b, rest = r₁ :: r₂ :: t ∧ decodeOperand w 1 .read r₁ = .ok a ∧ decodeOperand w 2 .read r₂ = .ok b ∧
      i = mk a b := by
  unfold formatRR at h
  split at h
  · obtain ⟨a, ha, h⟩ := bind_eq_ok.mp h
    obtain ⟨b, hb, h⟩ := bind_eq_ok.mp h
    exact ⟨_, _, _, a, b, rfl, ha, hb, by simpa [eq_comm] using h⟩
  · simp at h

theorem formatRRD_eq_ok {mk : Param → Param → Param → Instr} {w : Nat} {rest : List Int} {i : Instr}
    (h : formatRRD mk w rest = .ok i) :
    ∃ r₁ r₂ r₃ t a b d, rest = r₁ :: r₂ :: r₃ :: t ∧ decodeOperand w 1 .read r₁ = .ok a ∧
      decodeOperand w 2 .read r₂ = .ok b ∧ decodeOperand w 3 .dest r₃ = .ok d ∧ i = mk a b d := by
  unfold formatRRD at h
  split at h
  · obtain ⟨a, ha, h⟩ := bind_eq_ok.mp h
    obtain ⟨b, hb, h⟩ := bind_eq_ok.mp h
    obtain ⟨d, hd, h⟩ := bind_eq_ok.mp h
    exact ⟨_, _, _, _, a, b, d, rfl, ha, hb, hd, by simpa [eq_comm] using h⟩
  · simp at h

/-- What a word and the cells after it decode to is one of the four operand formats at the word's opcode, or `HLT`. -/
theorem decodeWord_cases {w : Nat} {rest : List Int} {i : Instr} (h : decodeWord w rest = .ok i) :
    (∃ mk, formatRRD mk w rest = .ok i ∧
      ((w % 100 = 1 ∧ mk = .add) ∨ (w % 100 = 2 ∧ mk = .mul) ∨ (w % 100 = 7 ∧ mk = .lt) ∨ (w % 100 = 8 ∧ mk = .eq))) ∨
    (∃ mk, formatRR mk w rest = .ok i ∧ ((w % 100 = 5 ∧ mk = .jt) ∨ (w % 100 = 6 ∧ mk = .jf))) ∨
    (formatD .input w rest = .ok i ∧ w % 100 = 3) ∨
    (∃ mk, formatR mk w rest = .ok i ∧ ((w % 100 = 4 ∧ mk = .output) ∨ (w % 100 = 9 ∧ mk = .arb))) ∨
    (i = .hlt ∧ w % 100 = 99) := by
  unfold decodeWord at h
  split at h <;> rename_i hop <;> unfold opcodeOf at hop
  · exact .inl ⟨_, h, .inl ⟨hop, rfl⟩⟩
  · exact .inl ⟨_, h, .inr (.inl ⟨hop, rfl⟩)⟩
  · exact .inr (.inr (.inl ⟨h, hop⟩))
  · exact .inr (.inr (.inr (.inl ⟨_, h, .inl ⟨hop, rfl⟩⟩)))
  · exact .inr (.inl ⟨_, h, .inl ⟨hop, rfl⟩⟩)
  · exact .inr (.inl ⟨_, h, .inr ⟨hop, rfl⟩⟩)
  · exact .inl ⟨_, h, .inr (.inr (.inl ⟨hop, rfl⟩))⟩
  · exact .inl ⟨_, h, .inr (.inr (.inr ⟨hop, rfl⟩))⟩
  · exact .inr (.inr (.inr (.inl ⟨_, h, .inr ⟨hop, rfl⟩⟩)))
  · exact .inr (.inr (.inr (.inr ⟨by simpa [eq_comm] using h, hop⟩)))
  · simp at h

/-- What decodes is a non-negative word and the cells after it. -/
theorem decode_eq_ok {cells : List Int} {i : Instr} (h : decode cells = .ok i) :
    ∃ w rest, cells = w :: rest ∧ 0 ≤ w ∧ decodeWord w.toNat rest = .ok i := by
  cases cells with
  | nil => simp [decode] at h
  | cons w rest =>
    unfold decode at h
    dsimp only at h
    split at h
    · simp at h
    · exact ⟨w, rest, rfl, by omega, h⟩

/-- An instruction that decodes has its cells in the slice (rule R102). -/
theorem size_le_of_decode {cells : List Int} {i : Instr} (h : decode cells = .ok i) : i.size ≤ cells.length := by
  obtain ⟨w, rest, rfl, -, h⟩ := decode_eq_ok h
  rcases decodeWord_cases h with ⟨mk, h, hmk⟩ | ⟨mk, h, hmk⟩ | ⟨h, -⟩ | ⟨mk, h, hmk⟩ | ⟨rfl, -⟩
  · obtain ⟨_, _, _, _, _, _, _, rfl, -, -, -, rfl⟩ := formatRRD_eq_ok h
    rcases hmk with ⟨-, rfl⟩ | ⟨-, rfl⟩ | ⟨-, rfl⟩ | ⟨-, rfl⟩ <;> simp [Instr.size, Instr.operands]
  · obtain ⟨_, _, _, _, _, rfl, -, -, rfl⟩ := formatRR_eq_ok h
    rcases hmk with ⟨-, rfl⟩ | ⟨-, rfl⟩ <;> simp [Instr.size, Instr.operands]
  · obtain ⟨_, _, _, rfl, -, rfl⟩ := formatD_eq_ok h
    simp [Instr.size, Instr.operands]
  · obtain ⟨_, _, _, rfl, -, rfl⟩ := formatR_eq_ok h
    rcases hmk with ⟨-, rfl⟩ | ⟨-, rfl⟩ <;> simp [Instr.size, Instr.operands]
  · simp [Instr.size, Instr.operands]

end Sys2Proof
end

