-- ==== Sys2Proof/Laws/PerInstr.lean ====
section
/-! SUPPORT. One lemma per instruction: its row of the opcode table, and the size of its encoding. -/

namespace Sys2Proof.Laws.TableRow

/-- The opcode table has a row with the instruction's mnemonic, opcode and operand roles, and its encoding has one cell
more than the row has operands (rules R90, R94, R95 and R110). -/
def Statement (i : Instr) : Prop :=
  ∃ row ∈ opcodeTable, row.mnemonic = i.mnemonic ∧ row.code = i.opcode ∧ row.roles = i.operands.map (·.1) ∧
    (encode i).length = row.roles.length + 1

theorem add (a b d : Param) : Statement (.add a b d) := ⟨⟨"ADD", 1, 100, [.read, .read, .dest]⟩, by simp [opcodeTable], rfl, rfl, rfl, rfl⟩
theorem mul (a b d : Param) : Statement (.mul a b d) := ⟨⟨"MUL", 2, 100, [.read, .read, .dest]⟩, by simp [opcodeTable], rfl, rfl, rfl, rfl⟩
theorem input (d : Param) : Statement (.input d) := ⟨⟨"IN", 3, 100, [.dest]⟩, by simp [opcodeTable], rfl, rfl, rfl, rfl⟩
theorem output (a : Param) : Statement (.output a) := ⟨⟨"OUT", 4, 100, [.read]⟩, by simp [opcodeTable], rfl, rfl, rfl, rfl⟩
theorem jt (a b : Param) : Statement (.jt a b) := ⟨⟨"JT", 5, 100, [.read, .read]⟩, by simp [opcodeTable], rfl, rfl, rfl, rfl⟩
theorem jf (a b : Param) : Statement (.jf a b) := ⟨⟨"JF", 6, 100, [.read, .read]⟩, by simp [opcodeTable], rfl, rfl, rfl, rfl⟩
theorem lt (a b d : Param) : Statement (.lt a b d) := ⟨⟨"LT", 7, 100, [.read, .read, .dest]⟩, by simp [opcodeTable], rfl, rfl, rfl, rfl⟩
theorem eq (a b d : Param) : Statement (.eq a b d) := ⟨⟨"EQ", 8, 100, [.read, .read, .dest]⟩, by simp [opcodeTable], rfl, rfl, rfl, rfl⟩
theorem arb (a : Param) : Statement (.arb a) := ⟨⟨"ARB", 9, 100, [.read]⟩, by simp [opcodeTable], rfl, rfl, rfl, rfl⟩
theorem hlt : Statement .hlt := ⟨⟨"HLT", 99, 100, []⟩, by simp [opcodeTable], rfl, rfl, rfl, rfl⟩

end Sys2Proof.Laws.TableRow
end

