-- ==== Sys2Proof/Laws/Step.lean ====
section
/-! SUPPORT. What each meaning and the step can do, said once: provers cite these and unfold neither. -/

namespace Sys2Proof.Machine

/-- A meaning that settles answers the state it reaches or takes the fault it raises. -/
theorem settle_eq_next {s t : State} {r : Except Raise State} (h : s.settle r = .next t) :
    (∃ e, r = .error e ∧ t = s.raise e) ∨ r = .ok t := by
  cases r with
  | ok u => exact .inr (by simpa [State.settle] using h)
  | error e => exact .inl ⟨e, rfl, by simpa [State.settle, eq_comm] using h⟩

/-- A meaning that settles answers a next state. -/
theorem settle_answers (s : State) (r : Except Raise State) : ∃ t, s.settle r = .next t := by
  cases r <;> simp [State.settle]

/-- `ADD`, `MUL`, `LT`, `EQ`: a fault, or the result in the destination and the next instruction. -/
theorem execRRD_cases {op : Int → Int → Except Raise Int} {a b d : Param} {s t : State}
    (h : execRRD op a b d s = .next t) :
    (∃ e, t = s.raise e) ∨
    (∃ x y dst r, s.readOperand 1 a = .ok x ∧ s.readOperand 2 b = .ok y ∧ s.destAddress 3 d = .ok dst ∧
      op x y = .ok r ∧ t = (s.memWrite dst r).retire 4) := by
  rcases settle_eq_next h with ⟨e, -, rfl⟩ | hr
  · exact .inl ⟨e, rfl⟩
  · obtain ⟨x, hx, hr⟩ := bind_eq_ok.mp hr
    obtain ⟨y, hy, hr⟩ := bind_eq_ok.mp hr
    obtain ⟨dst, hd, hr⟩ := bind_eq_ok.mp hr
    obtain ⟨r, ho, hr⟩ := bind_eq_ok.mp hr
    exact .inr ⟨x, y, dst, r, hx, hy, hd, ho, by simpa [eq_comm] using hr⟩

theorem execRRD_of_ok {op : Int → Int → Except Raise Int} {a b d : Param} {s : State} {x y r : Int} {dst : Nat}
    (hx : s.readOperand 1 a = .ok x) (hy : s.readOperand 2 b = .ok y) (hd : s.destAddress 3 d = .ok dst)
    (ho : op x y = .ok r) : execRRD op a b d s = .next ((s.memWrite dst r).retire 4) := by
  simp [execRRD, State.settle, hx, hy, hd, ho]

/-- `JT`, `JF`: a fault, the jump, or the next instruction. -/
theorem execJump_cases {taken : Int → Bool} {a b : Param} {s t : State} (h : execJump taken a b s = .next t) :
    (∃ e, t = s.raise e) ∨
    (∃ x y, s.readOperand 1 a = .ok x ∧ s.readOperand 2 b = .ok y ∧
      ((taken x = true ∧ ¬ y < 0 ∧ t = s.jumpTo y.toNat) ∨ (taken x = false ∧ t = s.retire 3))) := by
  rcases settle_eq_next h with ⟨e, -, rfl⟩ | hr
  · exact .inl ⟨e, rfl⟩
  · obtain ⟨x, hx, hr⟩ := bind_eq_ok.mp hr
    obtain ⟨y, hy, hr⟩ := bind_eq_ok.mp hr
    refine .inr ⟨x, y, hx, hy, ?_⟩
    split at hr
    · split at hr
      · simp at hr
      · exact .inl ⟨‹_›, ‹_›, by simpa [eq_comm] using hr⟩
    · exact .inr ⟨by simpa using ‹¬ taken x = true›, by simpa [eq_comm] using hr⟩

/-- `IN`: a fault, the oldest value popped and written, the end of input, or a wait. -/
theorem execIn_cases {d : Param} {s t : State} (h : execIn d s = .next t) :
    (∃ e, t = s.raise e) ∨
    (∃ dst, s.destAddress 1 d = .ok dst ∧
      ((∃ v q, s.inp.q = v :: q ∧ t = ({ s with inp := s.inp.pop }.memWrite dst v).retire 2) ∨
       (s.inp.q = [] ∧ s.inp.closed = true ∧ t = s.terminate .inputEnded) ∨
       (s.inp.q = [] ∧ s.inp.closed = false ∧ t = s.wait .waitIn))) := by
  rcases settle_eq_next h with ⟨e, -, rfl⟩ | hr
  · exact .inl ⟨e, rfl⟩
  · obtain ⟨dst, hd, hr⟩ := bind_eq_ok.mp hr
    refine .inr ⟨dst, hd, ?_⟩
    split at hr
    · exact .inl ⟨_, _, ‹_›, by simpa [eq_comm] using hr⟩
    · cases hc : s.inp.closed
      · exact .inr (.inr ⟨‹_›, rfl, by simpa [hc, eq_comm] using hr⟩)
      · exact .inr (.inl ⟨‹_›, rfl, by simpa [hc, eq_comm] using hr⟩)

/-- `OUT`: a fault, the value dropped, the value pushed, or a wait. -/
theorem execOut_cases {a : Param} {s t : State} (h : execOut a s = .next t) :
    (∃ e, t = s.raise e) ∨
    (∃ v, s.readOperand 1 a = .ok v ∧
      ((s.out.consumerAlive = false ∧ t = { s with outDrop := some v }.retire 2) ∨
       (s.out.consumerAlive = true ∧ s.out.full = false ∧ t = { s with out := s.out.push v }.retire 2) ∨
       (s.out.consumerAlive = true ∧ s.out.full = true ∧ t = s.wait .waitOut))) := by
  rcases settle_eq_next h with ⟨e, -, rfl⟩ | hr
  · exact .inl ⟨e, rfl⟩
  · obtain ⟨v, hv, hr⟩ := bind_eq_ok.mp hr
    refine .inr ⟨v, hv, ?_⟩
    cases hc : s.out.consumerAlive <;> cases hf : s.out.full <;> simp [hc, hf, eq_comm] at hr ⊢ <;> exact hr

/-- `ARB`: a fault, or the new relative base and the next instruction. -/
theorem execArb_cases {a : Param} {s t : State} (h : execArb a s = .next t) :
    (∃ e, t = s.raise e) ∨
    (∃ x r, s.readOperand 1 a = .ok x ∧ narrow s.cfg (s.rb + x) = some r ∧ t = { s with rb := r }.retire 2) := by
  rcases settle_eq_next h with ⟨e, -, rfl⟩ | hr
  · exact .inl ⟨e, rfl⟩
  · obtain ⟨x, hx, hr⟩ := bind_eq_ok.mp hr
    obtain ⟨r, ho, hr⟩ := bind_eq_ok.mp hr
    exact .inr ⟨x, r, hx, orOverflow_eq_ok ho, by simpa [eq_comm] using hr⟩

/-- What `exec` can answer, whatever the instruction: a fault; a cell written; a jump; nothing but the next instruction; a
pop and a write; the end of input; a wait for input; a drop; a push; a wait for room; a new relative base; a halt. -/
theorem exec_cases {i : Instr} {s t : State} (h : exec i s = .next t) :
    (∃ e, t = s.raise e) ∨
    (∃ dst v, dst < s.cfg.memCapacity ∧ (2 ≤ s.cfg.wordBits → isWord s.cfg.wordBits v = true) ∧
      (∃ a b d, i = .add a b d ∨ i = .mul a b d ∨ i = .lt a b d ∨ i = .eq a b d) ∧
      t = (s.memWrite dst v).retire 4) ∨
    (∃ a b y, (i = .jt a b ∨ i = .jf a b) ∧ s.readOperand 2 b = .ok y ∧ ¬ y < 0 ∧ t = s.jumpTo y.toNat) ∨
    (∃ a b, (i = .jt a b ∨ i = .jf a b) ∧ t = s.retire 3) ∨
    (∃ d dst v q, i = .input d ∧ dst < s.cfg.memCapacity ∧ s.inp.q = v :: q ∧
      t = ({ s with inp := s.inp.pop }.memWrite dst v).retire 2) ∨
    (∃ d, i = .input d ∧ s.inp.q = [] ∧ s.inp.closed = true ∧ t = s.terminate .inputEnded) ∨
    (∃ d, i = .input d ∧ s.inp.q = [] ∧ s.inp.closed = false ∧ t = s.wait .waitIn) ∨
    (∃ a v, i = .output a ∧ s.readOperand 1 a = .ok v ∧ s.out.consumerAlive = false ∧ t = { s with outDrop := some v }.retire 2) ∨
    (∃ a v, i = .output a ∧ s.readOperand 1 a = .ok v ∧ s.out.consumerAlive = true ∧ s.out.full = false ∧
      t = { s with out := s.out.push v }.retire 2) ∨
    (∃ a, i = .output a ∧ s.out.consumerAlive = true ∧ s.out.full = true ∧ t = s.wait .waitOut) ∨
    (∃ a x r, i = .arb a ∧ s.readOperand 1 a = .ok x ∧ narrow s.cfg (s.rb + x) = some r ∧
      t = { s with rb := r }.retire 2) ∨
    (i = .hlt ∧ t = s.terminate .halted) := by
  have rrd : ∀ {op : Int → Int → Except Raise Int} {a b d : Param},
      (∀ {x y r}, op x y = .ok r → 2 ≤ s.cfg.wordBits → isWord s.cfg.wordBits r = true) →
      execRRD op a b d s = .next t →
      (∃ e, t = s.raise e) ∨ (∃ dst v, dst < s.cfg.memCapacity ∧ (2 ≤ s.cfg.wordBits → isWord s.cfg.wordBits v = true) ∧
        t = (s.memWrite dst v).retire 4) := by
    intro op a b d hop hx
    rcases execRRD_cases hx with he | ⟨_, _, dst, r, -, -, hd, ho, rfl⟩
    · exact .inl he
    · exact .inr ⟨dst, r, State.destAddress_lt hd, hop ho, rfl⟩
  have hnarrow : ∀ {x : Int} {j : Fin 4} {v r : Int}, orOverflow (narrow s.cfg x) j v = .ok r → 2 ≤ s.cfg.wordBits →
      isWord s.cfg.wordBits r = true := fun h hw => isWord_narrow (by omega) (orOverflow_eq_ok h)
  have htruth : ∀ {c : Bool} {r : Int}, (Except.ok (truthWord c) : Except Raise Int) = .ok r → 2 ≤ s.cfg.wordBits →
      isWord s.cfg.wordBits r = true := by
    intro c r h hw
    rw [← Except.ok.inj h]
    exact isWord_truthWord hw c
  cases i with
  | add a b d =>
    rcases rrd hnarrow h with he | ⟨dst, v, hlt, hv, rfl⟩
    · exact .inl he
    · exact .inr (.inl ⟨dst, v, hlt, hv, ⟨a, b, d, by simp⟩, rfl⟩)
  | mul a b d =>
    rcases rrd hnarrow h with he | ⟨dst, v, hlt, hv, rfl⟩
    · exact .inl he
    · exact .inr (.inl ⟨dst, v, hlt, hv, ⟨a, b, d, by simp⟩, rfl⟩)
  | lt a b d =>
    rcases rrd htruth h with he | ⟨dst, v, hlt, hv, rfl⟩
    · exact .inl he
    · exact .inr (.inl ⟨dst, v, hlt, hv, ⟨a, b, d, by simp⟩, rfl⟩)
  | eq a b d =>
    rcases rrd htruth h with he | ⟨dst, v, hlt, hv, rfl⟩
    · exact .inl he
    · exact .inr (.inl ⟨dst, v, hlt, hv, ⟨a, b, d, by simp⟩, rfl⟩)
  | jt a b =>
    rcases execJump_cases h with he | ⟨x, y, -, hb, ⟨-, hy, rfl⟩ | ⟨-, rfl⟩⟩
    · exact .inl he
    · exact .inr (.inr (.inl ⟨a, b, y, by simp, hb, hy, rfl⟩))
    · exact .inr (.inr (.inr (.inl ⟨a, b, by simp, rfl⟩)))
  | jf a b =>
    rcases execJump_cases h with he | ⟨x, y, -, hb, ⟨-, hy, rfl⟩ | ⟨-, rfl⟩⟩
    · exact .inl he
    · exact .inr (.inr (.inl ⟨a, b, y, by simp, hb, hy, rfl⟩))
    · exact .inr (.inr (.inr (.inl ⟨a, b, by simp, rfl⟩)))
  | input d =>
    rcases execIn_cases h with he | ⟨dst, hd, ⟨v, q, hq, rfl⟩ | ⟨hq, hc, rfl⟩ | ⟨hq, hc, rfl⟩⟩
    · exact .inl he
    · exact .inr (.inr (.inr (.inr (.inl ⟨d, dst, v, q, rfl, State.destAddress_lt hd, hq, rfl⟩))))
    · exact .inr (.inr (.inr (.inr (.inr (.inl ⟨d, rfl, hq, hc, rfl⟩)))))
    · exact .inr (.inr (.inr (.inr (.inr (.inr (.inl ⟨d, rfl, hq, hc, rfl⟩))))))
  | output a =>
    rcases execOut_cases h with he | ⟨v, hv, ⟨hc, rfl⟩ | ⟨hc, hf, rfl⟩ | ⟨hc, hf, rfl⟩⟩
    · exact .inl he
    · exact .inr (.inr (.inr (.inr (.inr (.inr (.inr (.inl ⟨a, v, rfl, hv, hc, rfl⟩)))))))
    · exact .inr (.inr (.inr (.inr (.inr (.inr (.inr (.inr (.inl ⟨a, v, rfl, hv, hc, hf, rfl⟩))))))))
    · exact .inr (.inr (.inr (.inr (.inr (.inr (.inr (.inr (.inr (.inl ⟨a, rfl, hc, hf, rfl⟩)))))))))
  | arb a =>
    rcases execArb_cases h with he | ⟨x, r, hx, hr, rfl⟩
    · exact .inl he
    · exact .inr (.inr (.inr (.inr (.inr (.inr (.inr (.inr (.inr (.inr (.inl ⟨a, x, r, rfl, hx, hr, rfl⟩))))))))))
  | hlt =>
    have : t = s.terminate .halted := by simpa [exec, execHlt, eq_comm] using h
    exact .inr (.inr (.inr (.inr (.inr (.inr (.inr (.inr (.inr (.inr (.inr ⟨rfl, this⟩))))))))))

/-- Every instruction answers a next state. -/
theorem exec_answers (i : Instr) (s : State) : ∃ t, exec i s = .next t := by
  cases i <;> first | exact settle_answers _ _ | exact ⟨_, rfl⟩

/-- What `step` can do: nothing in a terminal state, take the decoder's fault, or run the decoded instruction. -/
theorem step_cases {s t : State} (h : step s = .next t) :
    (s.rs.terminal = true ∧ t = s) ∨
    (s.rs.terminal = false ∧ ∃ e, decode s.fetchCells = .error e ∧ t = s.beginStep.raise (Raise.ofDecode e)) ∨
    (s.rs.terminal = false ∧ ∃ i, decode s.fetchCells = .ok i ∧ exec i s.beginStep = .next t) := by
  unfold step at h
  split at h
  · exact .inl ⟨‹_›, by simpa [eq_comm] using h⟩
  · have hr : s.rs.terminal = false := by simpa using ‹¬ s.rs.terminal = true›
    split at h
    · exact .inr (.inl ⟨hr, _, ‹_›, by simpa [eq_comm] using h⟩)
    · exact .inr (.inr ⟨hr, _, ‹_›, h⟩)

/-- The cells the decoder is given, one by one. -/
theorem fetchCells_getElem? (s : State) (k : Nat) :
    s.fetchCells[k]? = if k < min maxSize (s.extent - s.pc) then some (s.memRead (s.pc + k)) else none := by
  by_cases hk : k < min maxSize (s.extent - s.pc)
  · simp [State.fetchCells, hk]
  · simp only [State.fetchCells, hk, if_false, List.getElem?_eq_none_iff, List.length_map, List.length_range]
    omega

@[simp] theorem fetchCells_length (s : State) : s.fetchCells.length = min maxSize (s.extent - s.pc) := by
  simp [State.fetchCells]

/-- An instruction that is fetched and decodes lies below the extent (rule R102), so `pc` cannot wrap around (rule R33). -/
theorem pc_add_size_le {s : State} {i : Instr} (h : decode s.fetchCells = .ok i) : s.pc + i.size ≤ s.extent := by
  have h1 := size_le_of_decode h
  have h2 : 1 ≤ i.size := by simp [Instr.size]
  rw [fetchCells_length] at h1
  omega

end Sys2Proof.Machine
end

