-- ==== Sys2Proof/Laws/Words.lean ====
section
/-! SUPPORT. Every value the machine reads, computes or records is a word of its width (rule R6). -/

namespace Sys2Proof.Machine

theorem isWord_zero (w : Nat) : isWord w 0 = true := by
  have hb : 0 < addressBound w := by unfold addressBound; positivity
  rw [isWord_iff]
  omega

namespace Mem

variable {w : Nat}

theorem words_cons {c : Cell} {m : Mem} : words (c :: m) w = true ↔ isWord w c.2 = true ∧ m.words w = true := by
  rw [words, List.all_cons, Bool.and_eq_true, words]

/-- What a cell holds is a word. -/
theorem isWord_get {m : Mem} (h : m.words w = true) (a : Nat) : isWord w (m.get a) = true := by
  induction m with
  | nil => exact isWord_zero w
  | cons c t ih =>
    rw [words_cons] at h
    by_cases hb : c.1 = a
    · simpa [get, hb] using h.1
    · simpa [get, hb] using ih h.2

/-- Writing a word keeps every cell a word. -/
theorem words_set {m : Mem} (h : m.words w = true) (a : Nat) {v : Int} (hv : isWord w v = true) :
    (m.set a v).words w = true := by
  induction m with
  | nil => by_cases h0 : v = 0 <;> simp [set, words, h0, hv]
  | cons c t ih =>
    obtain ⟨h1, h2⟩ := words_cons.mp h
    simp only [set]
    split
    · split <;> simp_all [words_cons]
    · split
      · split <;> simp_all [words_cons]
      · exact words_cons.mpr ⟨h1, ih h2⟩

/-- The cells of an image of words are words. -/
theorem words_ofWords (a : Nat) {ws : List Int} (h : ws.all (isWord w) = true) : (ofWords a ws).words w = true := by
  induction ws generalizing a with
  | nil => rfl
  | cons x t ih =>
    rw [List.all_cons, Bool.and_eq_true] at h
    rw [ofWords]
    split
    · exact ih _ h.2
    · exact words_cons.mpr ⟨h.1, ih _ h.2⟩

end Mem

namespace State

variable {s : State}

theorem isWord_memRead (h : s.mem.words s.cfg.wordBits = true) (a : Nat) : isWord s.cfg.wordBits (s.memRead a) = true := by
  unfold memRead
  split
  · exact Mem.isWord_get h a
  · exact isWord_zero _

/-- The value an operand supplies is a word. -/
theorem isWord_of_readOperand {i : Fin 4} {p : Param} {v : Int} (h : s.readOperand i p = .ok v)
    (hm : s.mem.words s.cfg.wordBits = true) (hp : isWord s.cfg.wordBits p.raw = true) :
    isWord s.cfg.wordBits v = true := by
  unfold readOperand at h
  split at h
  · obtain ⟨ea, -, h⟩ := bind_eq_ok.mp h
    rw [← Except.ok.inj h]
    exact isWord_memRead hm ea
  · rwa [← Except.ok.inj h]
  · obtain ⟨ea, -, h⟩ := bind_eq_ok.mp h
    rw [← Except.ok.inj h]
    exact isWord_memRead hm ea

/-- What a Relative address records when it faults is a word (rules R304 and R309). -/
theorem isWord_of_relativeAddress_error {i : Fin 4} {r : Int} {e : Raise} (h : s.relativeAddress i r = .error e)
    (hw : 1 ≤ s.cfg.wordBits) (hr : isWord s.cfg.wordBits r = true) : isWord s.cfg.wordBits e.value = true := by
  cases hn : narrow s.cfg (s.rb + r) with
  | none =>
    simp only [relativeAddress, addW, hn, orOverflow, bind_error, Except.error.injEq] at h
    rwa [← h]
  | some ea =>
    rw [relativeAddress_of_narrow hn] at h
    split at h
    · rw [← Except.error.inj h]
      exact isWord_narrow hw hn
    · simp at h

theorem positionAddress_error {i : Fin 4} {r : Int} {e : Raise} (h : positionAddress i r = .error e) : e.value = r := by
  unfold positionAddress at h
  split at h
  · rw [← Except.error.inj h]
  · simp at h

theorem bind_eq_error {ε α β : Type} {x : Except ε α} {f : α → Except ε β} {e : ε} :
    (x >>= f) = .error e ↔ x = .error e ∨ ∃ a, x = .ok a ∧ f a = .error e := by
  cases x <;> simp

/-- What a read operand records when it faults is a word. -/
theorem isWord_of_readOperand_error {i : Fin 4} {p : Param} {e : Raise} (h : s.readOperand i p = .error e)
    (hw : 1 ≤ s.cfg.wordBits) (hp : isWord s.cfg.wordBits p.raw = true) : isWord s.cfg.wordBits e.value = true := by
  unfold readOperand at h
  split at h
  · rcases bind_eq_error.mp h with h | ⟨_, -, h⟩
    · rwa [positionAddress_error h]
    · simp at h
  · simp at h
  · rcases bind_eq_error.mp h with h | ⟨_, -, h⟩
    · exact isWord_of_relativeAddress_error h hw hp
    · simp at h

/-- A Relative address that resolves is a non-negative word. -/
theorem isWord_of_relativeAddress {i : Fin 4} {r : Int} {a : Nat} (h : s.relativeAddress i r = .ok a)
    (hw : 1 ≤ s.cfg.wordBits) : isWord s.cfg.wordBits a = true := by
  cases hn : narrow s.cfg (s.rb + r) with
  | none => simp only [relativeAddress, addW, hn, orOverflow, bind_error, reduceCtorEq] at h
  | some ea =>
    rw [relativeAddress_of_narrow hn] at h
    split at h
    · simp at h
    · rw [← Except.ok.inj h, Int.toNat_of_nonneg (by omega)]
      exact isWord_narrow hw hn

theorem withinCapacity_error {i : Fin 4} {ea : Nat} {e : Raise} (h : s.withinCapacity i ea = .error e) : e.value = ea := by
  unfold withinCapacity at h
  split at h
  · rw [← Except.error.inj h]
  · simp at h

/-- What a destination records when it faults is a word. -/
theorem isWord_of_destAddress_error {i : Fin 4} {p : Param} {e : Raise} (h : s.destAddress i p = .error e)
    (hw : 1 ≤ s.cfg.wordBits) (hp : isWord s.cfg.wordBits p.raw = true) : isWord s.cfg.wordBits e.value = true := by
  unfold destAddress at h
  split at h
  · rcases bind_eq_error.mp h with h | ⟨a, ha, h⟩
    · rwa [positionAddress_error h]
    · rw [withinCapacity_error h]
      unfold positionAddress at ha
      split at ha
      · simp at ha
      · rwa [← Except.ok.inj ha, Int.toNat_of_nonneg (by omega)]
  · rwa [← Except.error.inj h]
  · rcases bind_eq_error.mp h with h | ⟨a, ha, h⟩
    · exact isWord_of_relativeAddress_error h hw hp
    · rw [withinCapacity_error h]
      exact isWord_of_relativeAddress ha hw

/-- The cells the decoder is given are words. -/
theorem isWord_of_mem_fetchCells (hm : s.mem.words s.cfg.wordBits = true) {x : Int} (hx : x ∈ s.fetchCells) :
    isWord s.cfg.wordBits x = true := by
  obtain ⟨k, -, rfl⟩ := List.mem_map.mp hx
  exact isWord_memRead hm _

end State

/-- The raw values of an instruction that decodes are cells of the slice (rule R90). -/
theorem raw_mem_of_decode {cells : List Int} {i : Instr} (h : decode cells = .ok i) :
    ∀ o ∈ i.operands, o.2.raw ∈ cells := by
  obtain ⟨w, rest, rfl, -, h⟩ := decode_eq_ok h
  rcases decodeWord_cases h with ⟨mk, h, hmk⟩ | ⟨mk, h, hmk⟩ | ⟨h, -⟩ | ⟨mk, h, hmk⟩ | ⟨rfl, -⟩
  · obtain ⟨_, _, _, _, _, _, _, rfl, ha, hb, hd, rfl⟩ := formatRRD_eq_ok h
    rw [← (decodeOperand_eq_ok ha).1, ← (decodeOperand_eq_ok hb).1, ← (decodeOperand_eq_ok hd).1]
    rcases hmk with ⟨-, rfl⟩ | ⟨-, rfl⟩ | ⟨-, rfl⟩ | ⟨-, rfl⟩ <;> simp [Instr.operands]
  · obtain ⟨_, _, _, _, _, rfl, ha, hb, rfl⟩ := formatRR_eq_ok h
    rw [← (decodeOperand_eq_ok ha).1, ← (decodeOperand_eq_ok hb).1]
    rcases hmk with ⟨-, rfl⟩ | ⟨-, rfl⟩ <;> simp [Instr.operands]
  · obtain ⟨_, _, _, rfl, hd, rfl⟩ := formatD_eq_ok h
    rw [← (decodeOperand_eq_ok hd).1]
    simp [Instr.operands]
  · obtain ⟨_, _, _, rfl, ha, rfl⟩ := formatR_eq_ok h
    rw [← (decodeOperand_eq_ok ha).1]
    rcases hmk with ⟨-, rfl⟩ | ⟨-, rfl⟩ <;> simp [Instr.operands]
  · simp [Instr.operands]

end Sys2Proof.Machine
end

