-- ==== Sys2Proof/Machine/Assembly.lean ====
section
/-! DEFINITION. The spec's own assembly notation as data (rules R110 to R112): statements, labels, pseudo-instructions, and the
cells an assembler writes for them (log entry 16). -/

namespace Sys2Proof.Assembly

/-- The mnemonics of rule R110 and the pseudo-instructions of rule R112. -/
inductive Mnemonic where
  | add | mul | input | output | jt | jf | lt | eq | arb | hlt
  | mov | jmp | nop | clr
  deriving DecidableEq, Repr

/-- `v` of rule R111: a signed integer or a label. -/
inductive Value where
  | int (n : Int)
  | label (name : String)
  deriving DecidableEq, Repr

/-- `[v]` is Position, `#v` Immediate, `[rb+v]` Relative (rule R111). -/
structure Operand where
  mode  : Mode
  value : Value
  deriving DecidableEq, Repr

/-- A statement (rules R110 and R111): an instruction, `.word v1, v2, ...`, or `name:` before the next statement. -/
inductive Stmt where
  | op (m : Mnemonic) (operands : List Operand)
  | word (vs : List Value)
  | label (name : String)
  deriving DecidableEq, Repr

/-- `#n`. -/
def imm (n : Int) : Operand := ⟨.immediate, .int n⟩

/-- The instruction a mnemonic stands for on its operands (rules R110 and R112): `none` for a wrong operand count. -/
def expand (m : Mnemonic) (ops : List Operand) : Option (Mnemonic × List Operand) :=
  match m, ops with
  | .mov, [s, d] => some (.add, [s, imm 0, d])
  | .jmp, [t] => some (.jt, [imm 1, t])
  | .nop, [] => some (.jt, [imm 0, imm 0])
  | .clr, [d] => some (.mul, [imm 0, imm 0, d])
  | .add, [a, b, d] => some (.add, [a, b, d])
  | .mul, [a, b, d] => some (.mul, [a, b, d])
  | .input, [d] => some (.input, [d])
  | .output, [a] => some (.output, [a])
  | .jt, [a, b] => some (.jt, [a, b])
  | .jf, [a, b] => some (.jf, [a, b])
  | .lt, [a, b, d] => some (.lt, [a, b, d])
  | .eq, [a, b, d] => some (.eq, [a, b, d])
  | .arb, [a] => some (.arb, [a])
  | .hlt, [] => some (.hlt, [])
  | _, _ => none

/-- The instruction of a real mnemonic on resolved operands. -/
def instrOf (m : Mnemonic) (ps : List Param) : Option Instr :=
  match m, ps with
  | .add, [a, b, d] => some (.add a b d)
  | .mul, [a, b, d] => some (.mul a b d)
  | .input, [d] => some (.input d)
  | .output, [a] => some (.output a)
  | .jt, [a, b] => some (.jt a b)
  | .jf, [a, b] => some (.jf a b)
  | .lt, [a, b, d] => some (.lt a b d)
  | .eq, [a, b, d] => some (.eq a b d)
  | .arb, [a] => some (.arb a)
  | .hlt, [] => some .hlt
  | _, _ => none

/-- The cells a statement occupies. -/
def Stmt.cells : Stmt → Nat
  | .op m ops =>
    match expand m ops with
    | some (_, os) => os.length + 1
    | none => 0
  | .word vs => vs.length
  | .label _ => 0

/-- The labels of a program from address `a`: a label stands for the address of the first cell of the next statement (rule
R111). DESIGN CHOICE (log entry 16): a label with no statement after it stands for the address after the last cell. -/
def labels (a : Nat) (prog : List Stmt) : List (String × Nat) :=
  match prog with
  | [] => []
  | .label name :: t => (name, a) :: labels a t
  | .op m ops :: t => labels (a + (Stmt.op m ops).cells) t
  | .word vs :: t => labels (a + vs.length) t

/-- A value as a word of the width `w`, `none` for an integer that is not a word or an unknown label. -/
def Value.resolve (w : Nat) (env : List (String × Nat)) : Value → Option Int
  | .int n => if isWord w n then some n else none
  | .label name => (env.lookup name).map (Int.ofNat ·)

/-- An operand with its value resolved. -/
def Operand.resolve (w : Nat) (env : List (String × Nat)) (o : Operand) : Option Param :=
  (o.value.resolve w env).map fun v => ⟨o.mode, v⟩

/-- The cells of a statement; an assembler never emits an illegal word (rule R112), so an ill-formed instruction has none. -/
def Stmt.assemble (w : Nat) (env : List (String × Nat)) : Stmt → Option (List Int)
  | .op m ops => do
    let (m', os) ← expand m ops
    let ps ← os.mapM (Operand.resolve w env)
    let i ← instrOf m' ps
    if i.wellFormed then some (encode i) else none
  | .word vs => vs.mapM (Value.resolve w env)
  | .label _ => some []

/-- The cells of a program placed at address 0, of words of the width `w`. -/
def assemble (w : Nat) (prog : List Stmt) : Option (List Int) :=
  (prog.mapM (Stmt.assemble w (labels 0 prog))).map List.flatten

end Sys2Proof.Assembly
end

