-- ==== Sys2Proof/Tests/Slice0.lean ====
section
/-! SUPPORT. The model's own tests: the smoke test of WellFormed, words written out from the spec's encodings, at most two one-step
tests per instruction with results from `95_test_vectors.md`, and a witness of the hypotheses of every statement. -/

namespace Sys2Proof.Tests

open Sys2Proof.Machine

/-- A core right after loading an image, with the parameters given. -/
def load (m : OverflowMode) (cap : Nat) (image input : List Int) (closed : Bool) : State :=
  State.resetWith { wordBits := 64, overflowMode := m, memCapacity := cap }
    { image := image
      extent := image.length
      inFifo := { depth := 2, q := input, closed := closed, consumerAlive := true }
      outFifo := Fifo.fresh 1 }

/-- The same with the spec's default parameters and an empty open input. -/
def img (image : List Int) : State := load .wrap (addressBound 64) image [] false

/-- The state an outcome answers, an arbitrary one where it answers none. -/
def got (o : Host.Outcome State Fault Refusal) : State :=
  match o with
  | .next t => t
  | .fault _ => { State.reset with rs := .halted, pc := 12345 }
  | .refused _ => { State.reset with rs := .halted, pc := 12345 }

/-- Operands. -/
def pos (v : Int) : Param := ⟨.position, v⟩
def imm (v : Int) : Param := ⟨.immediate, v⟩
def rel (v : Int) : Param := ⟨.relative, v⟩

/-! ## WellFormed refuses an ill-formed term for each of its checks (rule R103) -/

theorem test_wf_refuses_negative_position : (Instr.output (pos (-1))).wellFormed = false := by decide
theorem test_wf_refuses_immediate_destination : (Instr.input (imm 5)).wellFormed = false := by decide
theorem test_wf_refuses_third_operand_immediate : (Instr.eq (imm 1) (imm 1) (imm 1)).wellFormed = false := by decide
theorem test_wf_accepts_negative_relative : (Instr.add (rel (-1)) (imm (-1)) (rel (-1))).wellFormed = true := by decide

/-! ## Words from the encoding rules (vectors E1 to E15, rules R91 to R97) -/

theorem test_decode_add : decode [21201, 5, 6, 7] = .ok (.add (rel 5) (imm 6) (rel 7)) := by decide
theorem test_decode_mul : decode [102, 9, 8, 7] = .ok (.mul (imm 9) (pos 8) (pos 7)) := by decide
theorem test_decode_in : decode [203, 1] = .ok (.input (rel 1)) := by decide
theorem test_decode_out_ignores_digit_4 : decode [10004, 9] = .ok (.output (pos 9)) := by decide
theorem test_decode_jt : decode [1105, 1, 7] = .ok (.jt (imm 1) (imm 7)) := by decide
theorem test_decode_jf : decode [1006, 101, 0] = .ok (.jf (pos 101) (imm 0)) := by decide
theorem test_decode_lt : decode [1107, -5, 3, 5] = .ok (.lt (imm (-5)) (imm 3) (pos 5)) := by decide
theorem test_decode_eq : decode [1008, 100, 16, 101] = .ok (.eq (pos 100) (imm 16) (pos 101)) := by decide
theorem test_decode_arb : decode [109, -5] = .ok (.arb (imm (-5))) := by decide
theorem test_decode_hlt_ignores_high_digits : decode [100099] = .ok .hlt := by decide
theorem test_decode_truncates_negative_remainder : decode [-199, 0] = .error (.invalidOpcode (-99)) := by decide
theorem test_decode_size_before_mode : decode [304] = .error (.missingParams 2) := by decide
theorem test_decode_operands_in_order : decode [30001, -1, 0, 0] = .error (.negativePositionalParam 1 (-1)) := by decide
theorem test_encode_canonical : encode (.add (rel 5) (imm 6) (rel 7)) = [21201, 5, 6, 7] := by decide
theorem test_table_word_add : decodeTableWord 256 (1101 + 2 ^ 64 * 2 + 2 ^ 128 * 3 + 2 ^ 192 * 4) = some (.add (imm 2) (imm 3) (pos 4)) := by decide
theorem test_table_word_short : decodeTableWord 8 4 = some (.output (pos 0)) := by decide

/-! ## One step each (vectors of sections 2.2 to 2.7) -/

theorem test_add_over_its_own_word_A4 :
    let t := got (step (img [1101, 1, 1, 0, 99]))
    t.dump = (5, [2, 1, 1, 0, 99]) ∧ t.pc = 4 := by decide
theorem test_add_wraps_A7 :
    let t := got (step (img [1101, 9223372036854775807, 1, 5, 99]))
    t.memRead 5 = -9223372036854775808 ∧ t.extent = 6 := by decide
theorem test_mul_min_by_minus_one_M5 :
    let t := got (step (img [1102, -9223372036854775808, -1, 5, 99]))
    t.memRead 5 = -9223372036854775808 := by decide
theorem test_mul_overflow_faults_M6 :
    let t := got (step (load .fault (addressBound 64) [1102, -9223372036854775808, -1, 5, 99] [] true))
    t.status = 2308 ∧ t.faultValue = 2 ∧ t.extent = 5 ∧ t.pc = 0 := by decide
theorem test_in_writes_its_own_operand_I2 :
    let t := got (step (load .wrap (addressBound 64) [203, 1, 99] [8] true))
    t.memRead 1 = 8 ∧ t.pc = 2 ∧ t.inp.q = [] := by decide
theorem test_in_ends_I4 :
    let t := got (step (load .wrap (addressBound 64) [3, 0, 99] [] true))
    t.status = 5 ∧ t.pc = 0 ∧ t.out.closed = true ∧ t.inp.consumerAlive = false := by decide
theorem test_out_reads_zero_beyond_extent_O2 :
    let t := got (step (img [4, 1000, 99]))
    t.out.q = [0] ∧ t.extent = 3 := by decide
theorem test_out_drops_O5 :
    let t := got (step { img [104, 1, 99] with out := { Fifo.fresh 1 with consumerAlive := false } })
    t.outDrop = some 1 ∧ t.out.q = [] ∧ t.pc = 2 := by decide
theorem test_jt_indirect_J6 : (got (step (img [5, 6, 7, 99, 0, 0, 1, 3]))).pc = 3 := by decide
theorem test_jt_negative_target_J4 :
    let t := got (step (img [1105, 1, -5]))
    t.status = 9988 ∧ t.faultValue = -5 ∧ t.pc = 0 := by decide
theorem test_jf_taken_J2 : (got (step (img [1106, 0, 4, 98, 99]))).pc = 4 := by decide
theorem test_jf_not_taken_ignores_negative_target_J3 : (got (step (img [1106, 5, -1, 99]))).pc = 3 := by decide
theorem test_lt_signed_C4 :
    (got (step (img [1107, -9223372036854775808, 9223372036854775807, 5, 99]))).memRead 5 = 1 := by decide
theorem test_lt_false_grows_C2 :
    let t := got (step (img [1107, 3, -5, 5, 99]))
    t.memRead 5 = 0 ∧ t.extent = 6 := by decide
theorem test_eq_sign_C6 : (got (step (img [1108, 7, -7, 5, 99]))).memRead 5 = 0 := by decide
theorem test_eq_immediate_destination_C9 :
    let t := got (step (img [11108, 1, 1, 1, 99]))
    t.status = 13828 ∧ t.faultValue = 1 := by decide
theorem test_arb_relative_at_old_base_B4 : (got (step { img [109, 7, 209, -7, 99] with pc := 2, rb := 7 })).rb = 116 := by decide
theorem test_arb_overflow_faults_B6 :
    let t := got (step { load .fault (addressBound 64) [109, 1] [] true with rb := 9223372036854775807 })
    t.status = 2308 ∧ t.faultValue = 9 ∧ t.rb = 9223372036854775807 := by decide
theorem test_hlt_V1 :
    let t := got (step (img [99]))
    t.status = 3 ∧ t.pc = 0 ∧ t.dump = (1, [99]) ∧ t.runResult = some .success := by decide
theorem test_capacity_F17 :
    let t := got (step (load .wrap 16 [1101, 1, 1, 16, 99] [] true))
    t.status = 14340 ∧ t.faultValue = 16 ∧ t.extent = 5 := by decide
theorem test_relative_wraps_negative_B7 :
    let t := got (step { img [22201, 1, 0, 0, 99] with rb := 9223372036854775807 })
    t.status = 5124 ∧ t.faultValue = -9223372036854775808 := by decide
theorem test_decode_fault_before_resolution_F24 : (got (step (img [30201, -1, 0, 0, 99]))).status = 13572 := by decide
theorem test_empty_image_F1 : (got (step State.reset)).status = 260 := by decide
theorem test_fetch_word_runs_first_after_reset :
    let t := got (step (State.reset.withFetchWord 256 (1101 + 2 ^ 64 * 2 + 2 ^ 128 * 3 + 2 ^ 192 * 9)))
    t.memRead 9 = 5 ∧ t.pc = 4 ∧ t.rs = .running := by decide
theorem test_assemble_P1 :
    Assembly.assemble 64
      [ .op .input [⟨.position, .int 20⟩], .label "loop", .op .output [⟨.position, .int 20⟩],
        .op .add [⟨.position, .int 20⟩, Assembly.imm (-1), ⟨.position, .int 20⟩],
        .op .jt [⟨.position, .int 20⟩, ⟨.immediate, .label "loop"⟩], .op .hlt [] ] =
      some [3, 20, 4, 20, 1001, 20, -1, 20, 1005, 20, 2, 99] := by decide
theorem test_feedback_wiring_P5 : (Network.feedback 64 [img [3, 13], img [4, 13]] [Fifo.fresh 1, Fifo.fresh 1]).wired = true := by decide
theorem test_network_reset_takes_a_new_fifo_R152 :
    let n := Network.feedback 64 [got (step (img [99]))] [{ Fifo.fresh 1 with q := [4], closed := true, consumerAlive := false }]
    n.load 0 [3, 0] 2 0 0 = none ∧
      ((n.connect (Fifo.fresh 1)).bind fun m => m.load 0 [3, 0] 2 1 1).map (fun m => (m.fifos, m.nodes.map (·.core.rs))) =
        some (n.fifos ++ [Fifo.fresh 1], [.running]) := by decide
theorem test_connect_refuses_an_overfull_fifo_R152 :
    (Network.pipeline 64 [] []).connect { Fifo.fresh 1 with q := [1, 2] } = none := by decide
/-- Rules R6 and R142: at 52 bits the sum of the largest word and 1 is the smallest. -/
theorem test_add_wraps_at_52_bits :
    (got (step { img [1101, 2251799813685247, 1, 5, 99] with cfg := ⟨52, .wrap, 8⟩ })).memRead 5 = -2251799813685248 := by
  decide
/-- Rule R111 and log entry 16. -/
theorem test_label_after_the_last_statement :
    Assembly.assemble 64 [.word [.label "end"], .label "end"] = some [1] := by decide

/-! ## Witnesses: for each statement with hypotheses, concrete data that meets them, clause by clause -/

/-- The outcome is a next state. -/
def isNext (o : Host.Outcome State Fault Refusal) : Bool :=
  match o with
  | .next _ => true
  | .fault _ => false
  | .refused _ => false

theorem next_got {o : Host.Outcome State Fault Refusal} (h : isNext o = true) : o = .next (got o) := by
  cases o with
  | next _ => rfl
  | fault _ => cases h
  | refused _ => cases h

/-- Overflow faults, memory is full at 16 cells, and `rb` is the largest word. -/
def edge : State := { load .fault 16 [1, 2, 3] [] true with rb := 9223372036854775807 }

/-- An `IN` that waits. -/
def waitsIn : State := img [3, 0, 99]

/-- An `OUT` that waits. -/
def waitsOut : State := { img [104, 1, 99] with out := { Fifo.fresh 1 with q := [7] } }

theorem witness_DecodeInvertsEncode :
    (Instr.add (rel (-1)) (imm (-1)) (pos 0)).wellFormed = true ∧ Instr.hlt.wellFormed = true := by decide
theorem witness_EncodeInvertsDecode :
    decode (9921101 :: [2, 3, 4, 5]) = .ok (.add (imm 2) (imm 3) (rel 4)) ∧ decode (99 :: []) = .ok .hlt := by decide
theorem witness_DecodeIgnoresUnusedDigits :
    (⟨"IN", 3, 100, [.dest]⟩ : OpcodeRow) ∈ opcodeTable ∧ 0 ≤ (203 : Int) ∧ 0 ≤ (9999203 : Int) ∧
      (203 : Int) % 100 = 3 ∧ (203 : Int) % 10 ^ 3 = (9999203 : Int) % 10 ^ 3 := by decide
theorem witness_OperandDecodeChecks :
    (2 < digit 301 2 ∧ 2 < digit 90001 4) ∧ (digit 1 2 = 0 ∧ (-1 : Int) < 0) ∧ (digit 1 2 = 0 ∧ 0 ≤ (0 : Int)) ∧
      digit 10001 4 = 1 ∧ digit 101 2 = 1 ∧ digit 201 2 = 2 := by decide
theorem witness_DecodedInstructionsAreWellFormed :
    decode [22201, 0, -1, 1] = .ok (.add (rel 0) (rel (-1)) (rel 1)) := by decide
theorem witness_MemWriteGrowsThenWrites :
    (img [1, 0, 3]).mem.wf = true ∧ (img [1, 0, 3]).mem.below (img [1, 0, 3]).extent = true ∧
      (img [1, 0, 3]).extent ≤ 3 ∧ 3 < 5 := by decide
theorem witness_ReadReturnsMostRecentWrite :
    (img [1, 0, 3]).mem.wf = true ∧ (img [1, 0, 3]).mem.below (img [1, 0, 3]).extent = true := by decide
theorem witness_ReadOperandForms :
    0 ≤ (0 : Int) ∧ (-1 : Int) < 0 ∧
      (edge.cfg.overflowMode = .fault ∧ isWord edge.cfg.wordBits (edge.rb + 1) = false) ∧
      (isWord edge.cfg.wordBits (edge.rb + -9223372036854775807) = true ∧ 0 ≤ edge.rb + -9223372036854775807) ∧
      (isWord edge.cfg.wordBits (edge.rb + -9223372036854775808) = true ∧ edge.rb + -9223372036854775808 < 0) ∧
      ((img []).cfg.overflowMode = .wrap ∧ wrapW 64 (9223372036854775807 + 1) < 0 ∧ 0 ≤ wrapW 64 (-9223372036854775808 - 1)) := by
  decide
theorem witness_DestinationForms :
    (-1 : Int) < 0 ∧ (15 : Int) < edge.cfg.memCapacity ∧ (edge.cfg.memCapacity : Int) ≤ 16 ∧
      (edge.cfg.overflowMode = .fault ∧ isWord edge.cfg.wordBits (edge.rb + 1) = false) ∧
      (isWord edge.cfg.wordBits (edge.rb + -9223372036854775808) = true ∧ edge.rb + -9223372036854775808 < 0) ∧
      (isWord edge.cfg.wordBits (edge.rb + -9223372036854775792) = true ∧
        edge.rb + -9223372036854775792 < edge.cfg.memCapacity) ∧
      (isWord edge.cfg.wordBits (edge.rb + -9223372036854775791) = true ∧
        (edge.cfg.memCapacity : Int) ≤ edge.rb + -9223372036854775791) := by decide

/-- Operands that resolve to any two words in any state, and a destination at the last cell of the memory: with the values below,
the hypotheses of every clause about `ADD`, `MUL`, `LT`, `EQ`, `JT`, `JF`, `ARB` and `OUT`. -/
theorem witness_OperandsResolve :
    (∀ (s : State) (x y : Int), s.readOperand 1 (imm x) = .ok x ∧ s.readOperand 2 (imm y) = .ok y) ∧
      edge.readOperand 1 (pos 1) = .ok 2 ∧ edge.destAddress 3 (pos 15) = .ok 15 ∧ (img []).destAddress 3 (pos 15) = .ok 15 :=
  ⟨fun _ _ _ => ⟨rfl, rfl⟩, by decide, by decide, by decide⟩
theorem witness_AddWritesSum :
    isWord 64 ((2 : Int) + (-9223372036854775808 : Int)) = true ∧ (img []).cfg.overflowMode = .wrap ∧
      edge.cfg.overflowMode = .fault ∧ isWord 64 ((-1 : Int) + (-9223372036854775808 : Int)) = false := by decide
theorem witness_MulWritesProduct :
    isWord 64 ((1 : Int) * (-9223372036854775808 : Int)) = true ∧ (img []).cfg.overflowMode = .wrap ∧
      edge.cfg.overflowMode = .fault ∧ isWord 64 ((-1 : Int) * (-9223372036854775808 : Int)) = false := by decide
theorem witness_LtWritesComparison :
    (-9223372036854775808 : Int) < (9223372036854775807 : Int) ∧ (5 : Int) ≤ (5 : Int) := by decide
theorem witness_EqWritesComparison : (5 : Int) = 5 ∧ (7 : Int) ≠ -7 := by decide
theorem witness_InPopsEndsOrWaits :
    (waitsIn.destAddress 1 (pos 0) = .ok 0 ∧ waitsIn.inp.q = [] ∧ waitsIn.inp.closed = false) ∧
      (edge.destAddress 1 (pos 15) = .ok 15 ∧ edge.inp.q = [] ∧ edge.inp.closed = true) ∧
      ((load .wrap 4 [3, 0] [8] true).destAddress 1 (pos 3) = .ok 3 ∧ (load .wrap 4 [3, 0] [8] true).inp.q = 8 :: []) := by
  decide
theorem witness_OutPushesDropsOrWaits :
    waitsOut.readOperand 1 (imm 1) = .ok 1 ∧ (waitsOut.out.consumerAlive = true ∧ waitsOut.out.depth ≤ waitsOut.out.q.length) ∧
      (waitsIn.out.consumerAlive = true ∧ waitsIn.out.q.length < waitsIn.out.depth) ∧
      ({ waitsOut with out := waitsOut.out.abandon } : State).out.consumerAlive = false := by decide
theorem witness_JumpsAndArb :
    (1 : Int) ≠ 0 ∧ 0 ≤ (0 : Int) ∧
      (-1 : Int) < 0 ∧ edge.cfg.overflowMode = .fault ∧ isWord 64 (edge.rb + (1 : Int)) = false ∧
      isWord 64 (edge.rb + (0 : Int)) = true := by decide
theorem witness_ArbLeavesOthers :
    exec (.input (pos 0)) waitsIn = .next (got (exec (.input (pos 0)) waitsIn)) := next_got (by decide)
theorem witness_HltHalts : 0 ≤ (9223372036854775799 : Int) ∧ (9223372036854775799 : Int) % 100 = 99 := by decide
theorem witness_FirstOperandFaultIsTaken :
    edge.readOperand 1 (rel 1) = .error ⟨.arithOverflow, 1, 1⟩ ∧
      (edge.readOperand 1 (imm 0) = .ok 0 ∧ edge.readOperand 2 (pos (-1)) = .error ⟨.negativePositionalParam, 2, -1⟩) ∧
      (edge.readOperand 2 (imm 0) = .ok 0 ∧ edge.destAddress 3 (pos 16) = .error ⟨.capacityExceeded, 3, 16⟩) ∧
      edge.destAddress 1 (imm 7) = .error ⟨.immediateDestination, 1, 7⟩ := by decide

/-- The frames: a write to the last cell, a destination that faults, a faulting run and one that goes on. -/
theorem witness_ThreeOperandFrame :
    (edge.mem.wf = true ∧ edge.mem.below edge.extent = true) ∧
      (edge.destAddress 3 (pos 15) = .ok 15 ∧ (got (exec (.mul (pos 1) (imm 3) (pos 15)) edge)).rs = .running) ∧
      (edge.destAddress 3 (rel 0) = .error ⟨.capacityExceeded, 3, 9223372036854775807⟩ ∧
        (got (exec (.lt (pos 1) (imm 3) (rel 0)) edge)).rs = .faulted) := by decide
theorem witness_ThreeOperandFrame_next :
    exec (.mul (pos 1) (imm 3) (pos 15)) edge = .next (got (exec (.mul (pos 1) (imm 3) (pos 15)) edge)) :=
  next_got (by decide)
theorem witness_InFrame :
    (waitsIn.mem.wf = true ∧ waitsIn.mem.below waitsIn.extent = true) ∧
      (got (exec (.input (pos 0)) waitsIn)).rs = .waitIn ∧ (got (exec (.input (pos 0)) edge)).rs = .inputEnded ∧
      (got (exec (.input (pos 16)) edge)).rs = .faulted ∧
      (got (exec (.input (pos 0)) (load .wrap 4 [3, 0] [8] true))).rs = .running := by decide
theorem witness_NonStoringFrame :
    exec (.output (imm 1)) waitsOut = .next (got (exec (.output (imm 1)) waitsOut)) ∧
      exec (.arb (imm 1)) edge = .next (got (exec (.arb (imm 1)) edge)) ∧
      exec .hlt edge = .next (got (exec .hlt edge)) := ⟨next_got (by decide), next_got (by decide), next_got (by decide)⟩

theorem witness_StepRunsDecodedInstruction :
    waitsIn.rs.terminal = false ∧ decode waitsIn.fetchCells = .ok (.input (pos 0)) := by decide
theorem witness_StepRunsInstructionInMemory :
    let s := img [1101, 1, 2, 3]
    s.rs.terminal = false ∧ (Instr.add (imm 1) (imm 2) (pos 3)).wellFormed = true ∧
      s.pc + (Instr.add (imm 1) (imm 2) (pos 3)).size ≤ s.extent ∧
      ∀ k, k < 4 → (encode (.add (imm 1) (imm 2) (pos 3)))[k]? = some (s.memRead (s.pc + k)) := by decide
theorem witness_MissingParamsIsRaised :
    (State.reset.rs.terminal = false ∧ State.reset.extent ≤ State.reset.pc) ∧
      let s := img [1101, 1, 2]
      (⟨"ADD", 1, 100, [.read, .read, .dest]⟩ : OpcodeRow) ∈ opcodeTable ∧ s.pc < s.extent ∧ 0 ≤ s.memRead s.pc ∧
        s.memRead s.pc % 100 = 1 ∧ s.extent < s.pc + 4 := by decide
theorem witness_InvalidOpcodeIsRaised :
    ((img [-1]).pc < (img [-1]).extent ∧ (img [-1]).memRead 0 < 0) ∧
      (0 ≤ (img [198]).memRead 0 ∧ (img [198]).memRead 0 % 100 ∉ [1, 2, 3, 4, 5, 6, 7, 8, 9, 99]) ∧
      (img [0]).memRead 0 % 100 ∉ [1, 2, 3, 4, 5, 6, 7, 8, 9, 99] := by decide
theorem witness_FaultEntryIsPrecise :
    (img [302, 1, 1, 1]).rs.terminal = false ∧ (got (step (img [302, 1, 1, 1]))).rs = .faulted := by decide
theorem witness_FaultEntryIsPrecise_next : step (img [302, 1, 1, 1]) = .next (got (step (img [302, 1, 1, 1]))) :=
  next_got (by decide)
theorem witness_ArithOverflowOnlyInFaultMode :
    (img [302, 1, 1, 1]).cfg.overflowMode = .wrap ∧ (img [302, 1, 1, 1]).cause ≠ some .arithOverflow := by decide
theorem witness_TerminalStatesPersist : (got (step (img [99]))).rs.terminal = true := by decide

/-- Every run state a step can reach, and the rejection that faults. -/
theorem witness_RunStateTransitions :
    (got (step (img [99]))).rs = .halted ∧ (got (step (load .wrap 4 [3, 0] [] true))).rs = .inputEnded ∧
      (got (step waitsIn)).rs = .waitIn ∧ (got (step waitsOut)).rs = .waitOut ∧
      decode (img [0]).fetchCells = .error (.invalidOpcode 0) := by decide
theorem witness_Waits : step waitsIn = .next (got (step waitsIn)) ∧ step waitsOut = .next (got (step waitsOut)) :=
  ⟨next_got (by decide), next_got (by decide)⟩
theorem witness_WaitChangesOnlyRunState :
    waitsIn.rs.terminal = false ∧ (got (step waitsIn)).rs.waiting = true ∧ (got (step waitsOut)).rs.waiting = true := by decide
theorem witness_CoreInv : CoreInv waitsIn ∧ CoreInv waitsOut ∧ CoreInv (load .fault 3 [99, 0, 1] [1, 2] true) := by
  refine ⟨?_, ?_, ?_⟩ <;> constructor <;> decide
theorem witness_WaitEndsByTheOtherAgent :
    ((got (step waitsIn)).env (.push 5)).isSome = true ∧ ((got (step waitsIn)).env .close).isSome = true ∧
      ((got (step waitsOut)).env .pop).isSome = true ∧ ((got (step waitsOut)).env .abandon).isSome = true := by decide
theorem witness_OnlyArbWritesRelativeBase : (got (step (img [109, 5]))).rb ≠ (img [109, 5]).rb := by decide
theorem witness_WrapIsTheUniqueCongruentWord :
    isWord 52 (-2251799813685248) = true ∧ (2 ^ 52 : Int) ∣ -2251799813685248 - 2251799813685248 := by decide
theorem witness_ExtentNeverDecreases : (img [99]).extent ≤ 1 := by decide
theorem witness_AtMostOneCellIsWritten :
    let s := img [1101, 1, 1, 0]
    s.mem.wf = true ∧ s.mem.below s.extent = true ∧ (got (step s)).memRead 0 ≠ s.memRead 0 := by decide
theorem witness_OnlyInPopsAndOnlyOutPushes :
    (got (step (load .wrap 4 [3, 0] [8] true))).inp.q ≠ (load .wrap 4 [3, 0] [8] true).inp.q ∧
      (got (step (img [104, 1]))).out.q ≠ (img [104, 1]).out.q := by decide
theorem witness_EndingClosesBothEndpoints :
    (load .fault 3 [99, 0, 1] [1, 2] true).rs.terminal = false ∧
      (got (step (load .fault 3 [99, 0, 1] [1, 2] true))).rs.terminal = true ∧ (got (step waitsIn)).rs.terminal = false := by
  decide
theorem witness_EnvironmentTouchesOnlyFifos :
    (waitsOut.env (.push 5)).isSome = true ∧ (waitsOut.env .close).isSome = true ∧ (waitsOut.env .pop).isSome = true ∧
      (waitsOut.env .abandon).isSome = true := by decide

/-- A load of two extreme words that fills a memory of two cells. -/
def fullLoad : LoadRequest :=
  { image := [-9223372036854775808, 9223372036854775807], extent := 2, inFifo := Fifo.fresh 1, outFifo := Fifo.fresh 3 }

theorem witness_LoadGivesResetValues :
    (⟨64, .fault, 2⟩ : Config).legal = true ∧ fullLoad.accepted ⟨64, .fault, 2⟩ = true ∧ fullLoad.legal ⟨64, .fault, 2⟩ = true ∧ fullLoad.image[1]? = some 9223372036854775807 := by
  decide
theorem witness_LoadRefusesOrResets :
    fullLoad.accepted ⟨64, .fault, 2⟩ = true ∧ fullLoad.accepted ⟨64, .fault, 1⟩ = false ∧
      ({ fullLoad with image := [9223372036854775808] }).accepted ⟨64, .fault, 2⟩ = false ∧
      fullLoad.legal ⟨64, .fault, 2⟩ = true ∧
      ({ fullLoad with inFifo := { Fifo.fresh 1 with consumerAlive := false } }).legal ⟨64, .fault, 2⟩ = false := by decide
theorem witness_StatusWordFields :
    waitsIn.rs ≠ .faulted ∧ (got (step (img [302, 1, 1, 1]))).cause = some .invalidMode := by decide

/-- `IN 5; OUT 5; HLT`, the input pushed before the first attempt or after a wait. -/
def echo : State := img [3, 5, 4, 5, 99]

theorem witness_Runs :
    (∃ t tr, runEvents [.env (.push 4), .step, .step, .env .pop, .step] echo = some (t, tr) ∧ t.out.consumerAlive = true ∧
        t.rs.terminal = true ∧ tr.popped = [4]) ∧
      (∃ t tr, runEvents [.step, .env (.push 4), .step, .env .abandon, .step, .step] echo = some (t, tr) ∧
        t.rs.terminal = true ∧ tr.popped = [4]) ∧
      echo.coreView = echo.coreView :=
  ⟨⟨_, _, rfl, by decide, by decide, by decide⟩, ⟨_, _, rfl, by decide, by decide⟩, rfl⟩
theorem witness_NetworkStepsAreLocal :
    let n := Network.pipeline 64 [echo, echo] [Fifo.fresh 1, Fifo.fresh 1, Fifo.fresh 1]
    (n.step (.core 0)).isSome = true ∧ (n.nodes[0]?).map (fun d => (d.inIdx, d.outIdx)) = some (0, 1) ∧
      (n.step (.push 0 5)).isSome = true ∧ (n.step (.push 1 5)).isSome = false ∧ (n.step (.abandon 2)).isSome = true := by
  decide
theorem witness_FifoFlagsNeverReturn :
    let n := Network.pipeline 64 [echo] [Fifo.fresh 1, Fifo.fresh 1]
    (n.step (.core 0)).isSome = true ∧ (n.connect (Fifo.fresh 2)).isSome = true ∧ (n.load 0 [99] 1 0 1).isSome = true ∧
      n.fifos[1]? = some (Fifo.fresh 1) := by decide
theorem witness_FairTo :
    let n := Network.pipeline 64 [echo] [Fifo.fresh 1, Fifo.fresh 1]
    n.enabled (.core 0) = false ∧ n.enabled (.push 0 4) = true ∧ ((n.step (.push 0 4)).any (·.enabled (.core 0))) = true := by
  decide

end Sys2Proof.Tests
end

namespace Sys2Proof.Machine

/-! ## What a chain of answers can end in -/

/-- What a chain of answers may end in: a value that meets `Q`, or an error that meets `E`. -/
def Answers {ε α : Type} (E : ε → Prop) (Q : α → Prop) : Except ε α → Prop
  | .ok a => Q a
  | .error e => E e

namespace Answers

variable {ε α β : Type} {E : ε → Prop}

/-- Two answers chained: the second one's postcondition may rest on the first one's. -/
theorem bind {P : α → Prop} {Q : β → Prop} {x : Except ε α} {f : α → Except ε β} (hx : Answers E P x)
    (hf : ∀ a, P a → Answers E Q (f a)) : Answers E Q (x >>= f) := by
  cases x with
  | ok a => exact hf a hx
  | error e => exact hx

theorem intro {Q : α → Prop} {x : Except ε α} (he : ∀ e, x = .error e → E e) (hok : ∀ a, x = .ok a → Q a) :
    Answers E Q x := by
  cases x with
  | ok a => exact hok a rfl
  | error e => exact he e rfl

end Answers

/-! ## What a rejection of the decoder records -/

/-- A rejection records a cell of the slice, or a number of at most two digits: a size, an opcode, a remainder by 100 or a
mode digit (rules R301 to R306). -/
def RecordsCellOrSmall (cells : List Int) (e : DecodeError) : Prop :=
  (Raise.ofDecode e).value ∈ cells ∨ |(Raise.ofDecode e).value| < 100

section Rejections

variable {cells : List Int}

theorem decodeOperand_records (w : Nat) (i : Fin 4) (role : Role) {raw : Int} (hraw : raw ∈ cells) :
    Answers (RecordsCellOrSmall cells) (fun _ => True) (decodeOperand w i role raw) := by
  unfold decodeOperand
  split
  · right
    have hdigit : digit w (i.val + 1) < 10 := Nat.mod_lt _ (by decide)
    simp only [Raise.ofDecode, Nat.abs_cast]
    omega
  · split
    · exact .inl hraw
    · split
      · exact .inl hraw
      · trivial

theorem missingParams_records {n : Nat} (hn : n < 100) : RecordsCellOrSmall cells (.missingParams n) := by
  right
  simp only [Raise.ofDecode, Nat.abs_cast]
  omega

section Formats

variable {w : Nat} {rest : List Int} (hrest : ∀ x ∈ rest, x ∈ cells)
include hrest

theorem formatR_records {mk : Param → Instr} :
    Answers (RecordsCellOrSmall cells) (fun _ => True) (formatR mk w rest) := by
  unfold formatR
  split
  · exact (decodeOperand_records w 1 .read (hrest _ (by simp))).bind fun _ _ => trivial
  · exact missingParams_records (by decide)

theorem formatD_records {mk : Param → Instr} :
    Answers (RecordsCellOrSmall cells) (fun _ => True) (formatD mk w rest) := by
  unfold formatD
  split
  · exact (decodeOperand_records w 1 .dest (hrest _ (by simp))).bind fun _ _ => trivial
  · exact missingParams_records (by decide)

theorem formatRR_records {mk : Param → Param → Instr} :
    Answers (RecordsCellOrSmall cells) (fun _ => True) (formatRR mk w rest) := by
  unfold formatRR
  split
  · exact (decodeOperand_records w 1 .read (hrest _ (by simp))).bind fun _ _ =>
      (decodeOperand_records w 2 .read (hrest _ (by simp))).bind fun _ _ => trivial
  · exact missingParams_records (by decide)

theorem formatRRD_records {mk : Param → Param → Param → Instr} :
    Answers (RecordsCellOrSmall cells) (fun _ => True) (formatRRD mk w rest) := by
  unfold formatRRD
  split
  · exact (decodeOperand_records w 1 .read (hrest _ (by simp))).bind fun _ _ =>
      (decodeOperand_records w 2 .read (hrest _ (by simp))).bind fun _ _ =>
      (decodeOperand_records w 3 .dest (hrest _ (by simp))).bind fun _ _ => trivial
  · exact missingParams_records (by decide)

theorem decodeWord_records : Answers (RecordsCellOrSmall cells) (fun _ => True) (decodeWord w rest) := by
  have hop : opcodeOf w < 100 := Nat.mod_lt _ (by decide)
  unfold decodeWord
  split
  · exact formatRRD_records hrest
  · exact formatRRD_records hrest
  · exact formatD_records hrest
  · exact formatR_records hrest
  · exact formatRR_records hrest
  · exact formatRR_records hrest
  · exact formatRRD_records hrest
  · exact formatRRD_records hrest
  · exact formatR_records hrest
  · trivial
  · right
    simp only [Raise.ofDecode, Nat.abs_cast]
    omega

end Formats

theorem decode_records (cells : List Int) : Answers (RecordsCellOrSmall cells) (fun _ => True) (decode cells) := by
  cases cells with
  | nil => exact missingParams_records (by decide)
  | cons w rest =>
    unfold decode
    dsimp only
    split
    · right
      have hlo : -100 < w.tmod 100 := Int.lt_tmod_of_pos w (by decide)
      have hhi : w.tmod 100 < 100 := Int.tmod_lt_of_pos w (by decide)
      exact abs_lt.mpr ⟨hlo, hhi⟩
    · exact decodeWord_records fun x hx => List.mem_cons_of_mem w hx

end Rejections

/-! ## Legal parameters and legal FIFOs -/

theorem config_legal_iff {c : Config} :
    c.legal = true ↔ 52 ≤ c.wordBits ∧ 1 ≤ c.memCapacity ∧ c.memCapacity ≤ addressBound c.wordBits := by
  simp [Config.legal, and_assoc]

/-- A number of at most two digits is a word of every legal width (rule R6). -/
theorem isWord_of_abs_lt {c : Config} (hc : c.legal = true) {x : Int} (hx : |x| < 100) : isWord c.wordBits x = true := by
  obtain ⟨hwidth, -, -⟩ := config_legal_iff.mp hc
  have hb : 2 ^ 51 ≤ addressBound c.wordBits := Nat.pow_le_pow_right (by decide) (by omega)
  rw [isWord_iff]
  rw [abs_lt] at hx
  omega

namespace Fifo

variable {f : Fifo} {w : Nat}

theorem legal_iff : f.legal w = true ↔ 1 ≤ f.depth ∧ f.q.length ≤ f.depth ∧ ∀ x ∈ f.q, isWord w x = true := by
  simp [legal, and_assoc]

/-- A push into a FIFO with room leaves it within its depth (rule R152). -/
theorem legal_push {v : Int} (h : f.legal w = true) (hroom : f.full = false) (hv : isWord w v = true) :
    (f.push v).legal w = true := by
  obtain ⟨hdepth, -, hwords⟩ := legal_iff.mp h
  have hlt : f.q.length < f.depth := by simpa [full] using hroom
  refine legal_iff.mpr ⟨hdepth, by simpa using hlt, fun x hx => ?_⟩
  rcases List.mem_append.mp hx with hx | hx
  · exact hwords x hx
  · rwa [List.mem_singleton.mp hx]

theorem legal_pop (h : f.legal w = true) : f.pop.legal w = true := by
  obtain ⟨hdepth, hlen, hwords⟩ := legal_iff.mp h
  refine legal_iff.mpr ⟨hdepth, ?_, fun x hx => hwords x (List.mem_of_mem_tail hx)⟩
  rw [pop_q, List.length_tail, pop_depth]
  omega

end Fifo

/-! ## The state a step runs its instruction in, and every operation on it -/

/-- A core in the middle of a step: the invariant holds, the run has not ended, and the last step's `out_drop` is gone. -/
structure MidStep (s : State) : Prop extends CoreInv s where
  live   : s.rs.terminal = false
  noDrop : s.outDrop = none

theorem CoreInv.beginStep {s : State} (h : CoreInv s) (hlive : s.rs.terminal = false) : MidStep s.beginStep where
  toCoreInv := { h with
    dropWord := rfl
    dropOnlyByOut := fun hd => absurd rfl hd }
  live := hlive
  noDrop := rfl

theorem CoreInv.one_lt_wordBits {s : State} (h : CoreInv s) : 1 < s.cfg.wordBits :=
  lt_of_lt_of_le (by decide) (config_legal_iff.mp h.cfgLegal).1

theorem CoreInv.extent_le_addressBound {s : State} (h : CoreInv s) : s.extent ≤ addressBound s.cfg.wordBits := by
  obtain ⟨-, -, hcap⟩ := config_legal_iff.mp h.cfgLegal
  exact h.extentBound.trans hcap

namespace MidStep

variable {s : State} (h : MidStep s)
include h

theorem ne_faulted : s.rs ≠ .faulted := by
  intro hrs
  have := h.live
  simp [hrs, RunState.terminal] at this

/-! ### What an execute rule does before the step ends -/

theorem memWrite {a : Nat} {v : Int} (ha : a < s.cfg.memCapacity) (hv : isWord s.cfg.wordBits v = true) :
    MidStep (s.memWrite a v) :=
  { h with
    memCanonical := Mem.wf_set h.memCanonical a v
    memBelow := by
      rw [State.memWrite_mem, State.memWrite_extent]
      split
      · exact Mem.below_set (Mem.below_mono (by omega) h.memBelow) (by omega) v
      · exact Mem.below_set h.memBelow (by omega) v
    memWords := Mem.words_set h.memWords a hv
    extentBound := by
      have := h.extentBound
      rw [State.memWrite_extent, State.memWrite_cfg]
      split <;> omega }

theorem popInput : MidStep { s with inp := s.inp.pop } := { h with inpLegal := Fifo.legal_pop h.inpLegal }

theorem pushOutput {v : Int} (hroom : s.out.full = false) (hv : isWord s.cfg.wordBits v = true) :
    MidStep { s with out := s.out.push v } :=
  { h with
    outLegal := Fifo.legal_push h.outLegal hroom hv
    dropOnlyByOut := fun hd => absurd h.noDrop hd }

theorem setRb {r : Int} (hr : isWord s.cfg.wordBits r = true) : MidStep { s with rb := r } := { h with rbWord := hr }

/-! ### How the step ends -/

/-- A retirement or a taken jump: a new `pc`, and `RS = RUNNING` (rules R33 and R105). -/
theorem runAt {pc : Nat} (hpc : pc ≤ addressBound s.cfg.wordBits) : CoreInv { s with pc := pc, rs := .running } :=
  { h with
    pcBound := hpc
    outClosed := h.outClosed.trans h.live
    inpAlive := h.inpAlive.trans (congrArg (!·) h.live)
    reportClear := fun _ => h.reportClear h.ne_faulted
    reportSet := nofun
    dropOnlyByOut := fun hd => absurd h.noDrop hd }

theorem retire {n : Nat} (hpc : s.pc + n ≤ addressBound s.cfg.wordBits) : CoreInv (s.retire n) := h.runAt hpc

/-- The retirement of an `OUT` whose consumer is gone (rule R157). -/
theorem retireDropping {n : Nat} {v : Int} (hpc : s.pc + n ≤ addressBound s.cfg.wordBits)
    (hv : isWord s.cfg.wordBits v = true) (hgone : s.out.consumerAlive = false) :
    CoreInv ({ s with outDrop := some v }.retire n) :=
  { h.retire hpc with
    dropWord := hv
    dropOnlyByOut := fun _ => ⟨rfl, hgone⟩ }

/-- A step that ends in a wait (rule R158). -/
theorem wait {rs : RunState} (hrs : rs.waiting = true) : CoreInv (s.wait rs) :=
  have hlive : rs.terminal = false := by cases rs <;> simp_all [RunState.terminal, RunState.waiting]
  { h with
    outClosed := (h.outClosed.trans h.live).trans hlive.symm
    inpAlive := by simpa [h.live, hlive] using h.inpAlive
    reportClear := fun _ => h.reportClear h.ne_faulted
    reportSet := by rintro rfl; contradiction
    dropOnlyByOut := fun hd => absurd h.noDrop hd }

/-- A run that ends without a fault (rule R159). -/
theorem terminate {rs : RunState} (hend : rs.terminal = true) (hrs : rs ≠ .faulted) : CoreInv (s.terminate rs) :=
  { h with
    outClosed := hend.symm
    inpAlive := by simp [hend]
    reportClear := fun _ => h.reportClear h.ne_faulted
    reportSet := fun hf => absurd hf hrs
    dropOnlyByOut := fun hd => absurd h.noDrop hd }

/-- Taking a fault that records a word (rule R311). -/
theorem raise {e : Raise} (he : isWord s.cfg.wordBits e.value = true) : CoreInv (s.raise e) :=
  { h with
    valueWord := he
    outClosed := rfl
    inpAlive := rfl
    reportClear := fun hf => absurd rfl hf
    reportSet := fun _ => ⟨nofun, rfl⟩
    dropOnlyByOut := fun hd => absurd h.noDrop hd }

end MidStep

/-! ## Every instruction keeps the invariant -/

/-- A fault that records a word of the width `w` (rules R6 and R41). -/
def Raise.RecordsWord (w : Nat) (e : Raise) : Prop := isWord w e.value = true

section ExecRules

variable {s t : State} (h : MidStep s)
include h

/-- An answer that settles: what the execute rule reaches meets the invariant, and what it raises records a word. -/
theorem settle_keepsInv {r : Except Raise State} (hr : Answers (Raise.RecordsWord s.cfg.wordBits) CoreInv r)
    (ht : s.settle r = .next t) : CoreInv t := by
  rcases settle_eq_next ht with ⟨e, rfl, rfl⟩ | rfl
  · exact h.raise hr
  · exact hr

theorem readOperand_answers {p : Param} (hp : isWord s.cfg.wordBits p.raw = true) (i : Fin 4) :
    Answers (Raise.RecordsWord s.cfg.wordBits) (fun v => isWord s.cfg.wordBits v = true) (s.readOperand i p) :=
  .intro (fun _ he => State.isWord_of_readOperand_error he h.one_lt_wordBits.le hp)
    fun _ hv => State.isWord_of_readOperand hv h.memWords hp

theorem destAddress_answers {p : Param} (hp : isWord s.cfg.wordBits p.raw = true) (i : Fin 4) :
    Answers (Raise.RecordsWord s.cfg.wordBits) (fun a => a < s.cfg.memCapacity) (s.destAddress i p) :=
  .intro (fun _ he => State.isWord_of_destAddress_error he h.one_lt_wordBits.le hp)
    fun _ ha => State.destAddress_lt ha

/-- A sum or a product in execute gives a word, or a fault that records an opcode (rule R309). -/
theorem narrow_answers (x : Int) {op : Int} (hop : |op| < 100) :
    Answers (Raise.RecordsWord s.cfg.wordBits) (fun v => isWord s.cfg.wordBits v = true)
      (orOverflow (narrow s.cfg x) 0 op) := by
  cases hx : narrow s.cfg x with
  | none => exact isWord_of_abs_lt h.cfgLegal hop
  | some r => exact isWord_narrow h.one_lt_wordBits.le hx

theorem execRRD_keepsInv {op : Int → Int → Except Raise Int} {a b d : Param}
    (hpc : s.pc + 4 ≤ addressBound s.cfg.wordBits)
    (hraw : ∀ o ∈ [(Role.read, a), (.read, b), (.dest, d)], isWord s.cfg.wordBits o.2.raw = true)
    (hop : ∀ x y, Answers (Raise.RecordsWord s.cfg.wordBits) (fun v => isWord s.cfg.wordBits v = true) (op x y))
    (ht : execRRD op a b d s = .next t) : CoreInv t := by
  obtain ⟨ha, hb, hd⟩ : isWord _ a.raw = true ∧ isWord _ b.raw = true ∧ isWord _ d.raw = true := by simpa using hraw
  refine settle_keepsInv h ?_ ht
  exact (readOperand_answers h ha 1).bind fun x _ => (readOperand_answers h hb 2).bind fun y _ =>
    (destAddress_answers h hd 3).bind fun dst hdst => (hop x y).bind fun r hr => (h.memWrite hdst hr).retire hpc

theorem execJump_keepsInv {taken : Int → Bool} {a b : Param} (hpc : s.pc + 3 ≤ addressBound s.cfg.wordBits)
    (hraw : ∀ o ∈ [(Role.read, a), (.read, b)], isWord s.cfg.wordBits o.2.raw = true)
    (ht : execJump taken a b s = .next t) : CoreInv t := by
  obtain ⟨ha, hb⟩ : isWord _ a.raw = true ∧ isWord _ b.raw = true := by simpa using hraw
  refine settle_keepsInv h ?_ ht
  refine (readOperand_answers h ha 1).bind fun x _ => (readOperand_answers h hb 2).bind fun y hy => ?_
  split
  · split
    · exact hy
    · exact h.runAt (toNat_lt_of_isWord hy).le
  · exact h.retire hpc

theorem execIn_keepsInv {d : Param} (hpc : s.pc + 2 ≤ addressBound s.cfg.wordBits)
    (hraw : ∀ o ∈ [(Role.dest, d)], isWord s.cfg.wordBits o.2.raw = true) (ht : execIn d s = .next t) : CoreInv t := by
  refine settle_keepsInv h ?_ ht
  refine (destAddress_answers h (hraw _ (List.mem_singleton_self _)) 1).bind fun dst hdst => ?_
  split
  next v q hq =>
    obtain ⟨-, -, hqueued⟩ := Fifo.legal_iff.mp h.inpLegal
    have hv : isWord s.cfg.wordBits v = true := hqueued v (by simp [hq])
    exact (h.popInput.memWrite hdst hv).retire hpc
  next =>
    change CoreInv (if s.inp.closed then _ else _)
    split
    · exact h.terminate rfl nofun
    · exact h.wait rfl

theorem execOut_keepsInv {a : Param} (hpc : s.pc + 2 ≤ addressBound s.cfg.wordBits)
    (hraw : ∀ o ∈ [(Role.read, a)], isWord s.cfg.wordBits o.2.raw = true) (ht : execOut a s = .next t) : CoreInv t := by
  refine settle_keepsInv h ?_ ht
  refine (readOperand_answers h (hraw _ (List.mem_singleton_self _)) 1).bind fun v hv => ?_
  change CoreInv (if s.out.consumerAlive then (if s.out.full then _ else _) else _)
  split
  next =>
    split
    next => exact h.wait rfl
    next hroom => exact (h.pushOutput (by simpa using hroom) hv).retire hpc
  next hgone => exact h.retireDropping hpc hv (by simpa using hgone)

theorem execArb_keepsInv {a : Param} (hpc : s.pc + 2 ≤ addressBound s.cfg.wordBits)
    (hraw : ∀ o ∈ [(Role.read, a)], isWord s.cfg.wordBits o.2.raw = true) (ht : execArb a s = .next t) : CoreInv t := by
  refine settle_keepsInv h ?_ ht
  exact (readOperand_answers h (hraw _ (List.mem_singleton_self _)) 1).bind fun x _ =>
    (narrow_answers h (s.rb + x) (by decide)).bind fun r hr => (h.setRb hr).retire hpc

/-- An instruction whose raw values are words and whose cells end within the address bound keeps the invariant. -/
theorem exec_keepsInv {i : Instr} (hpc : s.pc + i.size ≤ addressBound s.cfg.wordBits)
    (hraw : ∀ o ∈ i.operands, isWord s.cfg.wordBits o.2.raw = true) (ht : exec i s = .next t) : CoreInv t := by
  have htruth : ∀ c, isWord s.cfg.wordBits (truthWord c) = true := isWord_truthWord h.one_lt_wordBits
  cases i with
  | add a b d => exact execRRD_keepsInv h hpc hraw (fun x y => narrow_answers h (x + y) (by decide)) ht
  | mul a b d => exact execRRD_keepsInv h hpc hraw (fun x y => narrow_answers h (x * y) (by decide)) ht
  | lt a b d => exact execRRD_keepsInv (op := fun x y => .ok (lessThan x y)) h hpc hraw (fun _ _ => htruth _) ht
  | eq a b d => exact execRRD_keepsInv (op := fun x y => .ok (equals x y)) h hpc hraw (fun _ _ => htruth _) ht
  | jt a b => exact execJump_keepsInv h hpc hraw ht
  | jf a b => exact execJump_keepsInv h hpc hraw ht
  | input d => exact execIn_keepsInv h hpc hraw ht
  | output a => exact execOut_keepsInv h hpc hraw ht
  | arb a => exact execArb_keepsInv h hpc hraw ht
  | hlt =>
    obtain rfl : s.terminate .halted = t := Host.Outcome.next.inj ht
    exact h.terminate rfl nofun

end ExecRules

/-- What the decoder's rejection of fetched cells records is a word. -/
theorem isWord_of_decode_error {s : State} {e : DecodeError} (h : CoreInv s) (he : decode s.fetchCells = .error e) :
    isWord s.cfg.wordBits (Raise.ofDecode e).value = true := by
  have hrec := decode_records s.fetchCells
  rw [he] at hrec
  rcases hrec with hcell | hsmall
  · exact State.isWord_of_mem_fetchCells h.memWords hcell
  · exact isWord_of_abs_lt h.cfgLegal hsmall

/-- Settles O42. A step faults on what does not decode, or runs an instruction whose cells are fetched, and so are words below
the extent; every ending of either keeps the invariant. -/
theorem stepKeepsInvariant : Obligations.StepKeepsInvariant := by
  intro s t h ht
  rcases step_cases ht with ⟨-, rfl⟩ | ⟨hlive, e, he, rfl⟩ | ⟨hlive, i, hi, hexec⟩
  · exact h
  · have hvalue := isWord_of_decode_error h he
    exact (h.beginStep hlive).raise hvalue
  · refine exec_keepsInv (h.beginStep hlive) ((pc_add_size_le hi).trans h.extent_le_addressBound) ?_ hexec
    exact fun o ho => State.isWord_of_mem_fetchCells h.memWords (raw_mem_of_decode hi o ho)

/-! ## Load, release and reset -/

section Load

variable {c : Config} {r : LoadRequest}

theorem LoadRequest.accepted_iff :
    r.accepted c = true ↔ r.image.all (isWord c.wordBits) = true ∧ r.image.length ≤ c.memCapacity := by
  rw [accepted, Bool.and_eq_true, decide_eq_true_eq]

theorem LoadRequest.legal_iff :
    r.legal c = true ↔ (r.image.length ≤ r.extent ∧ r.extent ≤ c.memCapacity) ∧
      (r.inFifo.legal c.wordBits = true ∧ r.inFifo.consumerAlive = true) ∧
      (r.outFifo.legal c.wordBits = true ∧ r.outFifo.consumerAlive = true) := by
  simp [legal, extentOk, Fifo.connectable, and_assoc]

/-- A loaded cell reads as the image's value there, and as 0 after the image (rules R37 and R400). -/
theorem memRead_resetWith (hext : r.image.length ≤ r.extent) (a : Nat) :
    (State.resetWith c r).memRead a = r.image.getD a 0 := by
  have hcell : (State.resetWith c r).mem.get a = r.image.getD a 0 := by simp [State.resetWith, Mem.get_ofWords]
  rw [State.memRead, hcell]
  split
  · rfl
  next hout =>
    have hlen : r.image.length ≤ a := hext.trans (Nat.le_of_not_lt hout)
    rw [List.getD_eq_default _ _ hlen]

theorem resetWith_coreInv (hc : c.legal = true) (ha : r.accepted c = true) (hl : r.legal c = true) :
    CoreInv (State.resetWith c r) := by
  obtain ⟨hwords, -⟩ := LoadRequest.accepted_iff.mp ha
  obtain ⟨⟨hlen, hext⟩, ⟨hin, -⟩, hout, -⟩ := LoadRequest.legal_iff.mp hl
  exact {
    cfgLegal := hc
    memCanonical := Mem.wfFrom_ofWords 0 r.image
    memBelow := Mem.below_mono (by rwa [Nat.zero_add]) (Mem.below_ofWords 0 r.image)
    memWords := Mem.words_ofWords 0 hwords
    rbWord := isWord_zero _
    valueWord := isWord_zero _
    dropWord := rfl
    extentBound := hext
    pcBound := Nat.zero_le _
    inpLegal := hin
    outLegal := hout
    outClosed := rfl
    inpAlive := rfl
    reportClear := fun _ => ⟨rfl, rfl, rfl, rfl⟩
    reportSet := nofun
    dropOnlyByOut := fun hd => absurd rfl hd }

end Load

/-- Settles O45: the registers, the endpoints and `STATUS` are fields of the reset; what memory reads and the invariant rest on
the load's legality. -/
theorem loadGivesResetValues : Obligations.LoadGivesResetValues := by
  intro c r hc ha hl
  obtain ⟨⟨hlen, -⟩, -⟩ := LoadRequest.legal_iff.mp hl
  refine ⟨fun a x hx => ?_, fun a hx => ?_, rfl, rfl, rfl, rfl, rfl, rfl, rfl, rfl, rfl, rfl, rfl, rfl, rfl, rfl, rfl, rfl,
    resetWith_coreInv hc ha hl⟩
  · rw [memRead_resetWith hlen, List.getD_eq_getElem?_getD, hx, Option.getD_some]
  · rw [memRead_resetWith hlen, List.getD_eq_default _ _ hx]

namespace Block

variable {b : Block} {r : LoadRequest}

theorem load_of_not_accepted (h : r.accepted b.core.cfg = false) : b.load r = some ⟨.inReset, b.core⟩ := by
  rw [load, h]
  rfl

theorem load_of_accepted (h : r.accepted b.core.cfg = true) :
    b.load r = if r.legal b.core.cfg then some ⟨.loaded, State.resetWith b.core.cfg r⟩ else none := by
  rw [load, if_pos h]

theorem step_of_released {t : State} (hp : b.phase = .released) (ht : Machine.step b.core = .next t) :
    b.step = ⟨.released, t⟩ := by
  simp only [step, hp, ht]

theorem release_of_released (hp : b.phase = .released) : b.release = b := by
  simp only [release, hp]

end Block

/-- Settles O47, by the load port's answer in each case and the block's phase. -/
theorem loadRefusesOrResets : Obligations.LoadRefusesOrResets := by
  intro b r
  refine ⟨fun h => ⟨Block.load_of_not_accepted h, rfl, rfl⟩, fun h hl => ?_, fun h hl => ?_, fun s => ⟨rfl, rfl⟩,
    fun t hp ht => ⟨Block.step_of_released hp ht, Block.release_of_released hp⟩⟩
  · rw [Block.load_of_accepted h, if_pos hl]
  · rw [Block.load_of_accepted h, hl]
    rfl

/-! ## Every step answers -/

/-- The step answers a next state: the same one where the run has ended, else the fault or the instruction's answer. -/
theorem step_answers (s : State) : ∃ t, step s = .next t := by
  unfold step
  split
  · exact ⟨s, rfl⟩
  · split
    · exact ⟨_, rfl⟩
    · exact exec_answers _ _

/-- Settles O33: no arm of `exec` refuses, and the step adds only the decoder's fault and the terminal state. -/
theorem stepAlwaysAnswers : Obligations.StepAlwaysAnswers := ⟨exec_answers, step_answers⟩

/-! ## The word congruent to an integer -/

/-- Two words that are congruent modulo `2^W` are one: they lie less than `2^W` apart (rule R12). -/
theorem eq_of_isWord_of_dvd {w : Nat} (hw : 1 ≤ w) {x y : Int} (hx : isWord w x = true) (hy : isWord w y = true)
    (h : (2 ^ w : Int) ∣ x - y) : x = y := by
  rw [isWord_iff] at hx hy
  rw [pow_wordBits hw] at h
  have hclose : |x - y| < 2 * (addressBound w : Int) := abs_lt.mpr ⟨by omega, by omega⟩
  exact sub_eq_zero.mp (Int.eq_zero_of_abs_lt_dvd h hclose)

theorem dvd_wrapW_sub (w : Nat) (x : Int) : (2 ^ w : Int) ∣ wrapW w x - x := by
  have h : ((2 ^ w : Nat) : Int) ∣ wrapW w x - x := Int.dvd_bmod_sub_self
  exact_mod_cast h

/-- Settles O52: `wrapW` gives a congruent word, and congruent words are equal. -/
theorem wrapIsTheUniqueCongruentWord : Obligations.WrapIsTheUniqueCongruentWord := by
  intro w hw
  refine ⟨fun x => ?_, fun x => ⟨isWord_wrapW hw x, dvd_wrapW_sub w x⟩, fun x y hy h => ?_⟩
  · rw [isWord_iff, addressBound]
    push_cast
    rfl
  · have hcong : (2 ^ w : Int) ∣ y - wrapW w x := by simpa using dvd_sub h (dvd_wrapW_sub w x)
    exact eq_of_isWord_of_dvd hw hy (isWord_wrapW hw x) hcong

end Sys2Proof.Machine

namespace Sys2Proof.Machine

/-! ## The run state a step ends in -/

theorem step_of_terminal {s : State} (h : s.rs.terminal = true) : step s = .next s := by
  rw [step, if_pos h]

/-- Settles O32: the step of a terminal state is its first branch. -/
theorem terminalStatesPersist : Obligations.TerminalStatesPersist := fun _ h => step_of_terminal h

/-- What ended an instruction `i` that took `s` to `t`, by the run state of `t` (rules R156, R157, R158, R201 and R311). -/
def EndedBy (i : Instr) (s t : State) : RunState → Prop
  | .running => True
  | .waitIn => (∃ d, i = .input d) ∧ s.inp.q = [] ∧ s.inp.closed = false
  | .waitOut => (∃ a, i = .output a) ∧ s.out.consumerAlive = true ∧ s.out.depth ≤ s.out.q.length
  | .halted => i = .hlt
  | .faulted => ∃ e, t = s.raise e
  | .inputEnded => (∃ d, i = .input d) ∧ s.inp.q = [] ∧ s.inp.closed = true

theorem exec_endedBy {i : Instr} {s t : State} (h : exec i s = .next t) : EndedBy i s t t.rs := by
  rcases exec_cases h with ⟨e, rfl⟩ | ⟨_, _, -, -, -, rfl⟩ | ⟨_, _, _, -, -, -, rfl⟩ | ⟨_, _, -, rfl⟩ |
    ⟨_, _, _, _, -, -, -, rfl⟩ | ⟨d, hi, hq, hclosed, rfl⟩ | ⟨d, hi, hq, hopen, rfl⟩ | ⟨_, _, -, -, -, rfl⟩ |
    ⟨_, _, -, -, -, -, rfl⟩ | ⟨a, hi, halive, hfull, rfl⟩ | ⟨_, _, _, -, -, -, rfl⟩ | ⟨hi, rfl⟩
  · exact ⟨e, rfl⟩
  · trivial
  · trivial
  · trivial
  · trivial
  · exact ⟨⟨d, hi⟩, hq, hclosed⟩
  · exact ⟨⟨d, hi⟩, hq, hopen⟩
  · trivial
  · trivial
  · exact ⟨⟨a, hi⟩, halive, of_decide_eq_true hfull⟩
  · trivial
  · exact hi

/-- Settles O29: a step that faults takes the decoder's fault or the instruction's, by `State.raise` either way. -/
theorem faultEntryIsPrecise : Obligations.FaultEntryIsPrecise := by
  intro s t hlive ht hrs
  have hraise : ∃ r, t = s.beginStep.raise r := by
    rcases step_cases ht with ⟨hend, -⟩ | ⟨-, e, -, rfl⟩ | ⟨-, i, -, hexec⟩
    · simp [hlive] at hend
    · exact ⟨Raise.ofDecode e, rfl⟩
    · have hended := exec_endedBy hexec
      rwa [hrs] at hended
  obtain ⟨r, rfl⟩ := hraise
  exact ⟨r, rfl, rfl⟩

/-- Settles O34: a rejection faults, and an instruction's run state says what ended it. -/
theorem runStateTransitions : Obligations.RunStateTransitions := by
  intro s t hlive ht
  rcases step_cases ht with ⟨hend, -⟩ | ⟨-, e, he, rfl⟩ | ⟨-, i, hi, hexec⟩
  · simp [hlive] at hend
  · simp [he]
  · have hended := exec_endedBy hexec
    simp only [hi, Except.ok.injEq]
    refine ⟨⟨fun hrs => ?_, ?_⟩, fun hrs => ?_, fun hrs => ?_, fun hrs => ?_, nofun⟩
    · rwa [hrs] at hended
    · rintro rfl
      obtain rfl : s.beginStep.terminate .halted = t := Host.Outcome.next.inj hexec
      rfl
    all_goals rwa [hrs] at hended

/-! ## The relative base -/

theorem exec_rb {i : Instr} {s t : State} (h : exec i s = .next t) (hi : ∀ a, i ≠ .arb a) : t.rb = s.rb := by
  rcases exec_cases h with ⟨e, rfl⟩ | ⟨_, _, -, -, -, rfl⟩ | ⟨_, _, _, -, -, -, rfl⟩ | ⟨_, _, -, rfl⟩ |
    ⟨_, _, _, _, -, -, -, rfl⟩ | ⟨_, -, -, -, rfl⟩ | ⟨_, -, -, -, rfl⟩ | ⟨_, _, -, -, -, rfl⟩ |
    ⟨_, _, -, -, -, -, rfl⟩ | ⟨_, -, -, -, rfl⟩ | ⟨a, _, _, harb, -⟩ | ⟨-, rfl⟩
  any_goals rfl
  exact absurd harb (hi a)

/-- Settles O37: every ending of a step but that of an `ARB` keeps `rb`. -/
theorem onlyArbWritesRelativeBase : Obligations.OnlyArbWritesRelativeBase := by
  intro s t ht hrb
  rcases step_cases ht with ⟨-, rfl⟩ | ⟨-, e, -, rfl⟩ | ⟨-, i, hi, hexec⟩
  · exact absurd rfl hrb
  · exact absurd rfl hrb
  · by_contra hne
    have hkeeps := exec_rb hexec fun a ha => hne ⟨a, ha ▸ hi⟩
    exact hrb hkeeps

/-! ## The state after reset -/

/-- The load of the empty image that `State.reset` is the reset of (log entry 5). -/
def LoadRequest.empty : LoadRequest := { image := [], extent := 0, inFifo := Fifo.fresh 1, outFifo := Fifo.fresh 1 }

theorem reset_eq_resetWith : State.reset = State.resetWith Config.standard LoadRequest.empty := rfl

/-- Settles O43: the empty load is accepted and legal, so its reset meets the invariant. -/
theorem resetMeetsInvariant : Obligations.ResetMeetsInvariant := by
  rw [Obligations.ResetMeetsInvariant, reset_eq_resetWith]
  exact resetWith_coreInv (by decide) (by decide) (by decide)

/-- Settles O46: no cell lies below the extent 0, and the rest are fields of `State.reset`. -/
theorem resetValues : Obligations.ResetValues := by
  refine ⟨fun a => ?_, rfl, rfl, rfl, rfl, rfl, rfl, rfl, rfl, rfl⟩
  rw [reset_eq_resetWith, memRead_resetWith le_rfl]
  rfl

/-! ## The fields of `STATUS` -/

theorem RunState.code_lt (r : RunState) : r.code < 2 ^ 3 := by cases r <;> decide

theorem causeCode_lt : ∀ c : Option Cause, causeCode c < 2 ^ 4
  | none => by decide
  | some c => by cases c <;> decide

namespace State

variable (s : State)

/-- A slice of `STATUS` is a quotient and remainder of the three fields' sum, which does not exceed the register. -/
theorem extractLsb'_status {start len v : Nat}
    (hv : (s.rs.code + 2 ^ 8 * causeCode s.cause + 2 ^ 12 * s.opidx.val) / 2 ^ start % 2 ^ len = v % 2 ^ len) :
    s.status.extractLsb' start len = BitVec.ofNat len v := by
  have hrun := s.rs.code_lt
  have hcause := causeCode_lt s.cause
  have hfits : s.rs.code + 2 ^ 8 * causeCode s.cause + 2 ^ 12 * s.opidx.val < 2 ^ 64 := by omega
  apply BitVec.eq_of_toNat_eq
  rw [BitVec.extractLsb'_toNat, Nat.shiftRight_eq_div_pow, status, BitVec.toNat_ofNat, Nat.mod_eq_of_lt hfits,
    BitVec.toNat_ofNat, hv]

theorem statusRun_status : statusRun s.status = BitVec.ofNat 3 s.rs.code :=
  s.extractLsb'_status (by omega)

theorem statusCause_status : statusCause s.status = BitVec.ofNat 4 (causeCode s.cause) :=
  s.extractLsb'_status (by have := s.rs.code_lt; omega)

theorem statusOpidx_status : statusOpidx s.status = BitVec.ofNat 2 s.opidx.val :=
  s.extractLsb'_status (by have := s.rs.code_lt; have := causeCode_lt s.cause; omega)

/-- The bits between `RUN` and `CAUSE` are reserved (rule R40). -/
theorem status_reservedLow : s.status.extractLsb' 3 5 = 0 :=
  s.extractLsb'_status (v := 0) (by have := s.rs.code_lt; omega)

/-- The bits above `OPIDX` are reserved (rule R40). -/
theorem status_reservedHigh : s.status.extractLsb' 14 50 = 0 :=
  s.extractLsb'_status (v := 0) (by have := s.rs.code_lt; have := causeCode_lt s.cause; omega)

end State

/-- Settles O48: each field of `STATUS` is read back on its own, and outside `FAULTED` the invariant clears the report. -/
theorem statusWordFields : Obligations.StatusWordFields := by
  intro s
  refine ⟨fun p hp hrs => ?_, fun p hp hcause => ?_, s.statusOpidx_status, s.status_reservedLow, s.status_reservedHigh,
    fun hinv hrs => ?_⟩
  · rw [s.statusRun_status, hrs]
    clear hrs
    revert p
    decide
  · rw [s.statusCause_status, hcause]
    clear hcause
    revert p
    decide
  · obtain ⟨hcause, hopidx, -, -⟩ := hinv.reportClear hrs
    rw [s.statusCause_status, s.statusOpidx_status, hcause, hopidx]
    exact ⟨rfl, rfl⟩

end Sys2Proof.Machine

namespace Sys2Proof

/-! ## The decoder reads back what the encoder wrote -/

theorem Mode.digit_lt (m : Mode) : m.digit < 10 := by cases m <;> decide

theorem opcode_lt (i : Instr) : i.opcode < 100 := by cases i <;> simp [Instr.opcode]

/-- The opcode stands in the two low digits (rule R91). -/
theorem opcodeOf_word (i : Instr) : opcodeOf i.word = i.opcode := by
  have hop := opcode_lt i
  rw [opcodeOf, Instr.word]
  omega

theorem digit_modeDigits {ps : List Param} {k : Nat} {p : Param} (h : ps[k]? = some p) :
    digit (modeDigits ps) k = p.mode.digit := by
  induction ps generalizing k with
  | nil => simp at h
  | cons q qs ih =>
    have hq := q.mode.digit_lt
    cases k with
    | zero =>
      obtain rfl : q = p := by simpa using h
      rw [digit, modeDigits]
      omega
    | succ k =>
      have htail : (q.mode.digit + 10 * modeDigits qs) / 10 = modeDigits qs := by omega
      rw [digit, modeDigits, pow_succ', ← Nat.div_div_eq_div_mul, htail]
      exact ih (by simpa using h)

/-- The mode of operand `k + 1` is digit `k + 2` (rule R92). -/
theorem digit_word {i : Instr} {k : Nat} {o : Role × Param} (h : i.operands[k]? = some o) :
    digit i.word (k + 2) = o.2.mode.digit := by
  have hop := opcode_lt i
  have hhigh : i.word / 100 = modeDigits (i.operands.map (·.2)) := by rw [Instr.word]; omega
  have hpow : 10 ^ (k + 2) = 100 * 10 ^ k := by ring
  rw [digit, hpow, ← Nat.div_div_eq_div_mul, hhigh]
  exact digit_modeDigits (by simp [h])

/-- An operand decodes from its raw value under its instruction's word. -/
theorem decodeOperand_word {i : Instr} (hwf : i.wellFormed = true) (k : Fin 3) {role : Role} {p : Param}
    (h : i.operands[k.val]? = some (role, p)) : decodeOperand i.word k.succ role p.raw = .ok p := by
  have hp : p.wellFormed role = true := List.all_eq_true.mp hwf _ (List.mem_of_getElem? h)
  exact decodeOperand_of_wellFormed (digit_word h) hp

section Formats

variable {w : Nat} {a b d : Param} (rest : List Int)

theorem formatR_of_operand {mk : Param → Instr} (ha : decodeOperand w 1 .read a.raw = .ok a) :
    formatR mk w (a.raw :: rest) = .ok (mk a) := by
  simp [formatR, ha]

theorem formatD_of_operand {mk : Param → Instr} (hd : decodeOperand w 1 .dest d.raw = .ok d) :
    formatD mk w (d.raw :: rest) = .ok (mk d) := by
  simp [formatD, hd]

theorem formatRR_of_operands {mk : Param → Param → Instr} (ha : decodeOperand w 1 .read a.raw = .ok a)
    (hb : decodeOperand w 2 .read b.raw = .ok b) : formatRR mk w (a.raw :: b.raw :: rest) = .ok (mk a b) := by
  simp [formatRR, ha, hb]

theorem formatRRD_of_operands {mk : Param → Param → Param → Instr} (ha : decodeOperand w 1 .read a.raw = .ok a)
    (hb : decodeOperand w 2 .read b.raw = .ok b) (hd : decodeOperand w 3 .dest d.raw = .ok d) :
    formatRRD mk w (a.raw :: b.raw :: d.raw :: rest) = .ok (mk a b d) := by
  simp [formatRRD, ha, hb, hd]

end Formats

/-- The canonical encoding decodes to its instruction, whatever cells follow it (rule R109). -/
theorem decode_encode_append {i : Instr} (hwf : i.wellFormed = true) (rest : List Int) :
    decode (encode i ++ rest) = .ok i := by
  have hword : decode (encode i ++ rest) = decodeWord i.word (i.operands.map (·.2.raw) ++ rest) := by
    have hnonneg : ¬ (i.word : Int) < 0 := by omega
    simp [encode, decode, hnonneg]
  have hop := @decodeOperand_word i hwf
  rw [hword, decodeWord, opcodeOf_word]
  cases i with
  | add a b d => exact formatRRD_of_operands rest (hop 0 rfl) (hop 1 rfl) (hop 2 rfl)
  | mul a b d => exact formatRRD_of_operands rest (hop 0 rfl) (hop 1 rfl) (hop 2 rfl)
  | input d => exact formatD_of_operand rest (hop 0 rfl)
  | output a => exact formatR_of_operand rest (hop 0 rfl)
  | jt a b => exact formatRR_of_operands rest (hop 0 rfl) (hop 1 rfl)
  | jf a b => exact formatRR_of_operands rest (hop 0 rfl) (hop 1 rfl)
  | lt a b d => exact formatRRD_of_operands rest (hop 0 rfl) (hop 1 rfl) (hop 2 rfl)
  | eq a b d => exact formatRRD_of_operands rest (hop 0 rfl) (hop 1 rfl) (hop 2 rfl)
  | arb a => exact formatR_of_operand rest (hop 0 rfl)
  | hlt => rfl

theorem encode_length (i : Instr) : (encode i).length = i.size := by simp [encode, Instr.size]

theorem size_le_maxSize (i : Instr) : i.size ≤ maxSize := by cases i <;> simp [Instr.size, Instr.operands, maxSize]

end Sys2Proof

namespace Sys2Proof.Machine

/-! ## The instruction that stands at `pc` is the one that runs -/

theorem step_of_decode_eq_ok {s : State} {i : Instr} (hlive : s.rs.terminal = false) (hi : decode s.fetchCells = .ok i) :
    step s = exec i s.beginStep := by
  simp [step, hlive, hi]

/-- The cells the decoder is given begin with the encoding of the instruction that stands at `pc` below the extent. -/
theorem encode_prefix_fetchCells {s : State} {i : Instr} (hfits : s.pc + i.size ≤ s.extent)
    (hcells : ∀ k, k < i.size → (encode i)[k]? = some (s.memRead (s.pc + k))) : encode i <+: s.fetchCells := by
  rw [List.prefix_iff_getElem?]
  intro k hk
  rw [encode_length] at hk
  have hmax := size_le_maxSize i
  rw [fetchCells_getElem?, if_pos (by omega), ← hcells k hk, List.getElem?_eq_getElem]

/-- Settles O26: the fetched cells are the encoding and what follows it, so they decode to the instruction. -/
theorem stepRunsInstructionInMemory : Obligations.StepRunsInstructionInMemory := by
  intro s i hlive hwf hfits hcells
  obtain ⟨rest, hrest⟩ := encode_prefix_fetchCells hfits hcells
  exact step_of_decode_eq_ok hlive (hrest ▸ decode_encode_append hwf rest)

/-! ## Writes to memory -/

namespace State

variable {s : State}

theorem memRead_memWrite_of_ne (hwf : s.mem.wf = true) (hb : s.mem.below s.extent = true) {a c : Nat} (hc : c ≠ a) (v : Int) :
    (s.memWrite a v).memRead c = s.memRead c := by
  rw [memRead_memWrite hwf hb, if_neg hc]

theorem memRead_of_extent_le {b : Nat} (hb : s.extent ≤ b) : s.memRead b = 0 := if_neg (by omega)

theorem memWrite_extent_eq_max (s : State) (a : Nat) (v : Int) : (s.memWrite a v).extent = max s.extent (a + 1) := by
  rw [memWrite_extent]
  split <;> omega

theorem memWrite_wf (hwf : s.mem.wf = true) (a : Nat) (v : Int) : (s.memWrite a v).mem.wf = true := Mem.wf_set hwf a v

/-- A write lists nothing from the new extent up (rule R37). -/
theorem memWrite_below (hb : s.mem.below s.extent = true) (a : Nat) (v : Int) :
    (s.memWrite a v).mem.below (s.memWrite a v).extent = true := by
  rw [memWrite_extent_eq_max]
  exact Mem.below_set (Mem.below_mono (le_max_left _ _) hb) (by omega) v

end State

/-- Settles O7: what the cells read is the law of a read after a write, and 0 at or above the old extent. -/
theorem memWriteGrowsThenWrites : Obligations.MemWriteGrowsThenWrites := by
  intro s a v hwf hb
  refine ⟨s.memWrite_extent_eq_max a v, ?_, fun c hext hc => ?_, fun c hc => State.memRead_memWrite_of_ne hwf hb hc v,
    State.memWrite_wf hwf a v, State.memWrite_below hb a v⟩
  · rw [State.memRead_memWrite hwf hb, if_pos rfl]
  · rw [State.memRead_memWrite_of_ne hwf hb (by omega), State.memRead_of_extent_le hext]

/-- Settles O8, by induction on the writes: a later write to `b` hides the first one, and without one the first one is what `b`
read before the rest. -/
theorem readReturnsMostRecentWrite : Obligations.ReadReturnsMostRecentWrite := by
  intro ws
  induction ws with
  | nil => exact fun _ _ _ _ => rfl
  | cons c ws ih =>
    intro s b hwf hb
    rw [List.foldl_cons, ih _ b (State.memWrite_wf hwf c.1 c.2) (State.memWrite_below hb c.1 c.2), List.reverse_cons,
      List.find?_append]
    cases ws.reverse.find? fun c => decide (c.1 = b) with
    | some later => rfl
    | none =>
      by_cases hc : c.1 = b
      · simp [hc, State.memRead_memWrite hwf hb]
      · simp [hc, Ne.symm hc, State.memRead_memWrite hwf hb]

/-! ## The frames of the instructions that store -/

theorem exec_eq_execRRD {a b d : Param} {i : Instr} (hi : i ∈ [Instr.add a b d, .mul a b d, .lt a b d, .eq a b d])
    (s : State) : ∃ op, exec i s = execRRD op a b d s := by
  simp only [List.mem_cons, List.not_mem_nil, or_false] at hi
  rcases hi with rfl | rfl | rfl | rfl <;> exact ⟨_, rfl⟩

/-- Settles O22: a fault leaves memory alone, and a retiring instruction is one write at the resolved destination. -/
theorem threeOperandFrame : Obligations.ThreeOperandFrame := by
  intro a b d i s t hi hwf hb ht
  obtain ⟨op, hop⟩ := exec_eq_execRRD hi s
  rw [hop] at ht
  rcases execRRD_cases ht with ⟨e, rfl⟩ | ⟨x, y, dst, r, -, -, hdst, -, rfl⟩
  · exact ⟨fun _ _ _ _ => rfl, fun _ _ _ => rfl, fun _ => ⟨rfl, rfl, fun _ => rfl⟩, fun hrs => absurd rfl hrs,
      rfl, rfl, rfl, rfl, rfl, rfl, rfl⟩
  · refine ⟨fun dst' hdst' c hc => ?_, fun e he => ?_, nofun, fun _ => ⟨rfl, rfl, rfl, rfl, rfl, rfl⟩,
      rfl, rfl, rfl, rfl, rfl, rfl, rfl⟩
    · obtain rfl : dst = dst' := by simpa [hdst] using hdst'
      exact State.memRead_memWrite_of_ne hwf hb hc r
    · simp [hdst] at he

/-- Settles O23: only the pop writes, at the resolved destination; a fault, the end of input and a wait leave memory alone. -/
theorem inFrame : Obligations.InFrame := by
  intro d s t hwf hb ht
  rcases execIn_cases ht with ⟨e, rfl⟩ | ⟨dst, hdst, ⟨v, q, -, rfl⟩ | ⟨-, -, rfl⟩ | ⟨-, -, rfl⟩⟩
  · exact ⟨fun _ _ _ _ => rfl, fun _ _ _ => rfl, fun _ => ⟨rfl, rfl, rfl, fun _ => rfl⟩, fun hrs => absurd rfl hrs, nofun,
      rfl, rfl, rfl, rfl, rfl, rfl⟩
  · refine ⟨fun dst' hdst' c hc => ?_, fun e he => ?_, fun hrs => absurd rfl hrs, fun _ => ⟨rfl, rfl, rfl, rfl⟩,
      fun _ => ⟨rfl, rfl⟩, rfl, rfl, rfl, rfl, rfl, rfl⟩
    · obtain rfl : dst = dst' := by simpa [hdst] using hdst'
      exact State.memRead_memWrite_of_ne (s := { s with inp := s.inp.pop }) hwf hb hc v
    · simp [hdst] at he
  · exact ⟨fun _ _ _ _ => rfl, fun _ _ _ => rfl, fun _ => ⟨rfl, rfl, rfl, fun _ => rfl⟩, fun _ => ⟨rfl, rfl, rfl, rfl⟩, nofun,
      rfl, rfl, rfl, rfl, rfl, rfl⟩
  · exact ⟨fun _ _ _ _ => rfl, fun _ _ _ => rfl, fun _ => ⟨rfl, rfl, rfl, fun _ => rfl⟩, fun _ => ⟨rfl, rfl, rfl, rfl⟩,
      fun _ => ⟨rfl, rfl⟩, rfl, rfl, rfl, rfl, rfl, rfl⟩

/-! ## The frame of every instruction -/

/-- The same cells and the same extent. -/
def SameMemory (s t : State) : Prop := t.mem = s.mem ∧ t.extent = s.extent

theorem SameMemory.memRead {s t : State} (h : SameMemory s t) (c : Nat) : t.memRead c = s.memRead c :=
  State.memRead_congr h.1 h.2 c

/-- What an instruction `i` that takes `s` to `t` leaves as it was, and which instruction changes the rest; what it does to `rb`
is said by `exec_rb`. -/
structure Frame (i : Instr) (s t : State) : Prop where
  cfg       : t.cfg = s.cfg
  /-- one cell is written at most, and by a storing instruction (rule R66) -/
  memory    : SameMemory s t ∨ i.opcode ∈ [1, 2, 3, 7, 8] ∧ ∃ a v, SameMemory (s.memWrite a v) t
  /-- only `IN` pops, the oldest value (rules R67 and R150) -/
  inpQueue  : t.inp.q = s.inp.q ∨ (∃ d, i = .input d) ∧ ∃ v, s.inp.q = v :: t.inp.q
  /-- only `OUT` pushes, one value, to a live consumer (rules R67 and R151) -/
  outQueue  : t.out.q = s.out.q ∨ (∃ a, i = .output a) ∧ s.out.consumerAlive = true ∧ ∃ v, t.out.q = s.out.q ++ [v]
  outDrop   : t.outDrop = s.outDrop ∨ ∃ a, i = .output a
  inpDepth  : t.inp.depth = s.inp.depth
  outDepth  : t.out.depth = s.out.depth
  /-- the flags of the other agents (rule R152) -/
  inpClosed : t.inp.closed = s.inp.closed
  outAlive  : t.out.consumerAlive = s.out.consumerAlive
  /-- while the run goes on, a FIFO changes by its queue only (rule R159) -/
  inpLive   : t.rs.terminal = false → t.inp = { s.inp with q := t.inp.q }
  outLive   : t.rs.terminal = false → t.out = { s.out with q := t.out.q }
  /-- the fault report is written by a fault only (rules R40 and R41) -/
  report    : t.rs ≠ .faulted → t.cause = s.cause ∧ t.opidx = s.opidx ∧ t.faultPc = s.faultPc ∧ t.faultValue = s.faultValue

/-- The frame of a change of the run state alone, from which the frame of each ending is got by naming what else it changes. -/
theorem Frame.ofRunState (i : Instr) (s : State) (rs : RunState) : Frame i s { s with rs := rs } where
  cfg       := rfl
  memory    := .inl ⟨rfl, rfl⟩
  inpQueue  := .inl rfl
  outQueue  := .inl rfl
  outDrop   := .inl rfl
  inpDepth  := rfl
  outDepth  := rfl
  inpClosed := rfl
  outAlive  := rfl
  inpLive _ := rfl
  outLive _ := rfl
  report _  := ⟨rfl, rfl, rfl, rfl⟩

/-- The frame of entering a terminal state, which closes the one endpoint and abandons the other (rule R159). -/
theorem Frame.terminate (i : Instr) (s : State) {rs : RunState} (hrs : rs.terminal = true) : Frame i s (s.terminate rs) :=
  { Frame.ofRunState i s rs with
    inpLive := fun hlive => absurd (hrs.symm.trans hlive) nofun
    outLive := fun hlive => absurd (hrs.symm.trans hlive) nofun }

theorem Frame.raise (i : Instr) (s : State) (e : Raise) : Frame i s (s.raise e) :=
  { Frame.terminate i s (rs := .faulted) rfl with report := fun hrs => absurd rfl hrs }

theorem exec_frame {i : Instr} {s t : State} (h : exec i s = .next t) : Frame i s t := by
  have run := Frame.ofRunState i s .running
  rcases exec_cases h with ⟨e, rfl⟩ | ⟨dst, v, -, -, ⟨a, b, d, hi⟩, rfl⟩ | ⟨_, _, _, -, -, -, rfl⟩ | ⟨_, _, -, rfl⟩ |
    ⟨d, dst, v, q, rfl, -, hq, rfl⟩ | ⟨_, -, -, -, rfl⟩ | ⟨_, -, -, -, rfl⟩ | ⟨a, _, hi, -, -, rfl⟩ |
    ⟨a, v, hi, -, halive, -, rfl⟩ | ⟨_, -, -, -, rfl⟩ | ⟨_, _, _, -, -, -, rfl⟩ | ⟨-, rfl⟩
  · exact .raise i s e
  · have hop : i.opcode ∈ [1, 2, 3, 7, 8] := by rcases hi with rfl | rfl | rfl | rfl <;> simp [Instr.opcode]
    exact { run with memory := .inr ⟨hop, dst, v, rfl, rfl⟩ }
  · exact { run with }
  · exact { run with }
  · exact { run with
      memory := .inr ⟨by simp [Instr.opcode], dst, v, rfl, rfl⟩
      inpQueue := .inr ⟨⟨d, rfl⟩, v, by simp [hq]⟩
      inpLive := fun _ => rfl }
  · exact .terminate i s rfl
  · exact .ofRunState i s .waitIn
  · exact { run with outDrop := .inr ⟨a, hi⟩ }
  · exact { run with
      outQueue := .inr ⟨⟨a, hi⟩, halive, v, rfl⟩
      outLive := fun _ => rfl }
  · exact .ofRunState i s .waitOut
  · exact { run with }
  · exact .terminate i s rfl

/-- Settles O24: each clause is the frame's, its exception being an instruction of the other kind. -/
theorem nonStoringFrame : Obligations.NonStoringFrame := by
  intro a b i s t hi ht
  have frame := exec_frame ht
  have hstore : i.opcode ∉ [1, 2, 3, 7, 8] := by
    simp only [List.mem_cons, List.not_mem_nil, or_false] at hi
    rcases hi with rfl | rfl | rfl | rfl | rfl <;> simp [Instr.opcode]
  have hinput : ¬ ∃ d, i = .input d := by
    rintro ⟨d, rfl⟩
    exact hstore (by simp [Instr.opcode])
  have hmem : SameMemory s t := frame.memory.resolve_right fun ⟨hop, _⟩ => hstore hop
  have hinp : t.inp.q = s.inp.q := frame.inpQueue.resolve_right fun ⟨hin, _⟩ => hinput hin
  refine ⟨hmem.memRead, hmem.2, exec_rb ht, fun hout => ⟨?_, ?_⟩, frame.report, fun hlive => ⟨?_, ?_⟩, frame.cfg, hinp,
    frame.inpClosed, frame.outAlive⟩
  · exact frame.outQueue.resolve_right fun ⟨⟨p, hp⟩, _⟩ => hout p hp
  · exact frame.outDrop.resolve_right fun ⟨p, hp⟩ => hout p hp
  · rw [frame.inpLive hlive, hinp]
  · rw [frame.outLive hlive]

/-! ## What a step writes, pops and pushes -/

theorem step_memory {s t : State} (h : step s = .next t) :
    SameMemory s t ∨
      ∃ i, decode s.fetchCells = .ok i ∧ i.opcode ∈ [1, 2, 3, 7, 8] ∧ ∃ a v, SameMemory (s.memWrite a v) t := by
  rcases step_cases h with ⟨-, rfl⟩ | ⟨-, e, -, rfl⟩ | ⟨-, i, hi, hexec⟩
  · exact .inl ⟨rfl, rfl⟩
  · exact .inl ⟨rfl, rfl⟩
  · exact (exec_frame hexec).memory.imp_right fun ⟨hop, hwrite⟩ => ⟨i, hi, hop, hwrite⟩

/-- Settles O38: a step keeps the extent or writes one cell, and a write makes it the maximum of the old one and the address
after the cell. -/
theorem extentNeverDecreases : Obligations.ExtentNeverDecreases := by
  refine ⟨fun s t ht => ?_, fun s a ha => if_pos ha⟩
  rcases step_memory ht with ⟨-, hext⟩ | ⟨i, -, -, a, v, -, hext⟩
  · exact hext.ge
  · rw [hext, State.memWrite_extent_eq_max]
    exact le_max_left _ _

/-- Settles O39: where a cell changed the step was a write, and only the written cell reads otherwise than before. -/
theorem atMostOneCellIsWritten : Obligations.AtMostOneCellIsWritten := by
  intro s t hwf hb ht
  rcases step_memory ht with hsame | ⟨i, hi, hop, a, v, hwrite⟩
  · exact ⟨fun x _ hx => absurd (hsame.memRead x) hx, fun x hx => absurd (hsame.memRead x) hx⟩
  · have hcell : ∀ x, t.memRead x ≠ s.memRead x → x = a := by
      intro x hx
      by_contra hne
      exact hx ((hwrite.memRead x).trans (State.memRead_memWrite_of_ne hwf hb hne v))
    exact ⟨fun x y hx hy => (hcell x hx).trans (hcell y hy).symm, fun _ _ => ⟨i, hi, hop⟩⟩

/-- Settles O40, by the frame of the instruction; a fault and a step of a terminal state move no value. -/
theorem onlyInPopsAndOnlyOutPushes : Obligations.OnlyInPopsAndOnlyOutPushes := by
  intro s t ht
  rcases step_cases ht with ⟨-, rfl⟩ | ⟨-, e, -, rfl⟩ | ⟨-, i, hi, hexec⟩
  · exact ⟨fun hq => absurd rfl hq, fun hq => absurd rfl hq, rfl, rfl, rfl, rfl, rfl⟩
  · exact ⟨fun hq => absurd rfl hq, fun hq => absurd rfl hq, rfl, rfl, rfl, rfl, rfl⟩
  · have frame := exec_frame hexec
    simp only [hi, Except.ok.injEq]
    exact ⟨frame.inpQueue.resolve_left, frame.outQueue.resolve_left, frame.inpClosed, frame.outAlive, frame.inpDepth,
      frame.outDepth, frame.cfg⟩

end Sys2Proof.Machine

namespace Sys2Proof

/-! ## The encoding read back, digit by digit -/

/-- Mode digits that are the low digits of `v` are `v` cut to as many digits. -/
theorem modeDigits_eq_mod {ps : List Param} {v : Nat} (h : ∀ k p, ps[k]? = some p → digit v k = p.mode.digit) :
    modeDigits ps = v % 10 ^ ps.length := by
  induction ps generalizing v with
  | nil => simp [modeDigits, Nat.mod_one]
  | cons p ps ih =>
    have hhead : v % 10 = p.mode.digit := by simpa [digit] using h 0 p rfl
    have htail : modeDigits ps = v / 10 % 10 ^ ps.length := ih fun k q hq => by
      rw [← h (k + 1) q hq, digit, digit, pow_succ', Nat.div_div_eq_div_mul]
    rw [modeDigits, List.length_cons, pow_succ', Nat.mod_mul, hhead, htail]

/-- Nothing stands above the used mode digits. -/
theorem modeDigits_lt (ps : List Param) : modeDigits ps < 10 ^ ps.length := by
  rw [modeDigits_eq_mod fun _ _ => digit_modeDigits]
  exact Nat.mod_lt _ (by positivity)

/-- An instruction whose opcode and mode digits are those of `w` has `w`, cut to the used digits, as its word (rule R109). -/
theorem word_eq_mod {i : Instr} {w : Nat} (hop : opcodeOf w = i.opcode)
    (hdigit : ∀ k o, i.operands[k]? = some o → digit w (k + 2) = o.2.mode.digit) :
    i.word = w % 10 ^ (i.operands.length + 2) := by
  have hmodes : modeDigits (i.operands.map (·.2)) = w / 100 % 10 ^ i.operands.length := by
    rw [modeDigits_eq_mod (v := w / 100), List.length_map]
    intro k p hp
    rw [List.getElem?_map, Option.map_eq_some_iff] at hp
    obtain ⟨o, ho, rfl⟩ := hp
    have hpow : 10 ^ (k + 2) = 100 * 10 ^ k := by ring
    rw [← hdigit k o ho, digit, digit, Nat.div_div_eq_div_mul, hpow]
  rw [Instr.word, hmodes, ← hop, opcodeOf, pow_add, mul_comm (10 ^ _), Nat.mod_mul]
  norm_num

theorem word_lt (i : Instr) : i.word < 10 ^ (i.operands.length + 2) := by
  rw [word_eq_mod (opcodeOf_word i) fun _ _ => digit_word]
  exact Nat.mod_lt _ (by positivity)

/-- Settles O1: the word's digits are the opcode and the modes, and the decoder reads back what the encoder wrote. -/
theorem decodeInvertsEncode : Obligations.DecodeInvertsEncode := by
  intro i
  refine ⟨⟨i.word, rfl, opcodeOf_word i, word_lt i, fun k o ho => ⟨digit_word ho, ?_⟩⟩, encode_length i,
    fun rest hwf => decode_encode_append hwf rest⟩
  simp [encode, ho]

/-! ## What the decoder accepts -/

theorem operands_length_le (i : Instr) : i.operands.length ≤ 3 := Nat.le_of_succ_le_succ (size_le_maxSize i)

/-- Operand `k + 1` is what the decoder reads from cell `k` after the word `w` (rules R90 to R92). -/
def ReadsOperands (w : Nat) (rest : List Int) (ops : List (Role × Param)) : Prop :=
  ∀ k : Fin 3, ∀ o, ops[k.val]? = some o → ∃ r, rest[k.val]? = some r ∧ decodeOperand w k.succ o.1 r = .ok o.2

/-- The decoder accepts an instruction of the word's opcode, each operand read in its place. -/
theorem readsOperands_of_decodeWord {w : Nat} {rest : List Int} {i : Instr} (h : decodeWord w rest = .ok i) :
    opcodeOf w = i.opcode ∧ ReadsOperands w rest i.operands := by
  rcases decodeWord_cases h with ⟨mk, h, hmk⟩ | ⟨mk, h, hmk⟩ | ⟨h, hop⟩ | ⟨mk, h, hmk⟩ | ⟨rfl, hop⟩
  · obtain ⟨r₁, r₂, r₃, t, a, b, d, rfl, ha, hb, hd, rfl⟩ := formatRRD_eq_ok h
    have hreads : ReadsOperands w (r₁ :: r₂ :: r₃ :: t) [(.read, a), (.read, b), (.dest, d)] := by
      simp [ReadsOperands, Fin.forall_fin_succ, ha, hb, hd]
    rcases hmk with ⟨hop, rfl⟩ | ⟨hop, rfl⟩ | ⟨hop, rfl⟩ | ⟨hop, rfl⟩ <;> exact ⟨hop, hreads⟩
  · obtain ⟨r₁, r₂, t, a, b, rfl, ha, hb, rfl⟩ := formatRR_eq_ok h
    have hreads : ReadsOperands w (r₁ :: r₂ :: t) [(.read, a), (.read, b)] := by
      simp [ReadsOperands, Fin.forall_fin_succ, ha, hb]
    rcases hmk with ⟨hop, rfl⟩ | ⟨hop, rfl⟩ <;> exact ⟨hop, hreads⟩
  · obtain ⟨r₁, t, d, rfl, hd, rfl⟩ := formatD_eq_ok h
    exact ⟨hop, by simp [ReadsOperands, Instr.operands, Fin.forall_fin_succ, hd]⟩
  · obtain ⟨r₁, t, a, rfl, ha, rfl⟩ := formatR_eq_ok h
    have hreads : ReadsOperands w (r₁ :: t) [(.read, a)] := by
      simp [ReadsOperands, Fin.forall_fin_succ, ha]
    rcases hmk with ⟨hop, rfl⟩ | ⟨hop, rfl⟩ <;> exact ⟨hop, hreads⟩
  · exact ⟨hop, nofun⟩

theorem ReadsOperands.operand {w : Nat} {rest : List Int} {i : Instr} (h : ReadsOperands w rest i.operands) {k : Nat}
    {o : Role × Param} (ho : i.operands[k]? = some o) :
    rest[k]? = some o.2.raw ∧ digit w (k + 2) = o.2.mode.digit ∧ o.2.wellFormed o.1 = true := by
  have hk : k < 3 := (List.getElem?_eq_some_iff.mp ho).1.trans_le (operands_length_le i)
  obtain ⟨r, hr, hdecode⟩ := h ⟨k, hk⟩ o ho
  obtain ⟨rfl, hmode, hwf⟩ := decodeOperand_eq_ok hdecode
  exact ⟨hr, hmode.symm, hwf⟩

/-- The raw values are the cells after the word. -/
theorem ReadsOperands.raws_prefix {w : Nat} {rest : List Int} {i : Instr} (h : ReadsOperands w rest i.operands) :
    i.operands.map (·.2.raw) <+: rest := by
  rw [List.prefix_iff_getElem?]
  intro k hk
  rw [List.getElem_map]
  exact (h.operand (List.getElem?_eq_getElem _)).1

/-- Settles O2: the operands are read in their places, so the word's low digits are the opcode and the modes. -/
theorem encodeInvertsDecode : Obligations.EncodeInvertsDecode := by
  intro w rest i h
  obtain ⟨_, _, ⟨rfl, rfl⟩, hw, h⟩ := decode_eq_ok h
  obtain ⟨hop, hreads⟩ := readsOperands_of_decodeWord h
  have hword : (i.word : Int) = w % 10 ^ (i.operands.length + 2) := by
    rw [word_eq_mod hop fun k o ho => (hreads.operand ho).2.1]
    push_cast
    rw [Int.toNat_of_nonneg hw]
  have hraws := List.prefix_iff_eq_take.mp hreads.raws_prefix
  have hlen := hreads.raws_prefix.length_le
  rw [List.length_map] at hraws hlen
  exact ⟨hw, hlen, by rw [encode, hword, hraws]⟩

/-- Settles O5: each operand passed the checks of its role when it was read. -/
theorem decodedInstructionsAreWellFormed : Obligations.DecodedInstructionsAreWellFormed := by
  intro cells i h
  obtain ⟨w, rest, -, -, h⟩ := decode_eq_ok h
  obtain ⟨-, hreads⟩ := readsOperands_of_decodeWord h
  refine List.all_eq_true.mpr fun o ho => ?_
  obtain ⟨k, hk⟩ := List.mem_iff_getElem?.mp ho
  exact (hreads.operand hk).2.2

end Sys2Proof

namespace Sys2Proof

/-! ## The format a row of the opcode table selects -/

/-- The formats of rule R96, each by the roles of its operands; `HLT` has none. -/
inductive FormatOf : List Role → (Nat → List Int → Except DecodeError Instr) → Prop
  | rrd (mk : Param → Param → Param → Instr) : FormatOf [.read, .read, .dest] (formatRRD mk)
  | rr (mk : Param → Param → Instr) : FormatOf [.read, .read] (formatRR mk)
  | d (mk : Param → Instr) : FormatOf [.dest] (formatD mk)
  | r (mk : Param → Instr) : FormatOf [.read] (formatR mk)
  | hlt : FormatOf [] fun _ _ => .ok .hlt

/-- A word with the opcode of a row is decoded by the format of the row's roles (rules R94 and R96). -/
theorem decodeWord_of_row {row : OpcodeRow} (hrow : row ∈ opcodeTable) :
    ∃ format, FormatOf row.roles format ∧ ∀ w rest, opcodeOf w = row.code → decodeWord w rest = format w rest := by
  simp only [opcodeTable, List.mem_cons, List.not_mem_nil, or_false] at hrow
  rcases hrow with rfl | rfl | rfl | rfl | rfl | rfl | rfl | rfl | rfl | rfl
  · exact ⟨_, .rrd .add, fun w rest hop => by simp only [decodeWord, hop]⟩
  · exact ⟨_, .rrd .mul, fun w rest hop => by simp only [decodeWord, hop]⟩
  · exact ⟨_, .d .input, fun w rest hop => by simp only [decodeWord, hop]⟩
  · exact ⟨_, .r .output, fun w rest hop => by simp only [decodeWord, hop]⟩
  · exact ⟨_, .rr .jt, fun w rest hop => by simp only [decodeWord, hop]⟩
  · exact ⟨_, .rr .jf, fun w rest hop => by simp only [decodeWord, hop]⟩
  · exact ⟨_, .rrd .lt, fun w rest hop => by simp only [decodeWord, hop]⟩
  · exact ⟨_, .rrd .eq, fun w rest hop => by simp only [decodeWord, hop]⟩
  · exact ⟨_, .r .arb, fun w rest hop => by simp only [decodeWord, hop]⟩
  · exact ⟨_, .hlt, fun w rest hop => by simp only [decodeWord, hop]⟩

theorem digit_mod_pow {w k m : Nat} (hk : k < m) : digit (w % 10 ^ m) k = digit w k := by
  have hdvd : 10 ^ k * 10 ∣ 10 ^ m := by
    rw [← pow_succ]
    exact pow_dvd_pow 10 hk
  rw [digit, digit, ← Nat.mod_mul_right_div_self, Nat.mod_mod_of_dvd _ hdvd, Nat.mod_mul_right_div_self]

/-- Only the digits the row's operands use select what is decoded (rule R93). -/
theorem FormatOf.congr {roles : List Role} {format : Nat → List Int → Except DecodeError Instr}
    (hf : FormatOf roles format) {w w' : Nat} (h : w % 10 ^ (roles.length + 2) = w' % 10 ^ (roles.length + 2))
    (rest : List Int) : format w rest = format w' rest := by
  have hoperand : ∀ (i : Fin 4) (role : Role) (r : Int), i.val ≤ roles.length →
      decodeOperand w i role r = decodeOperand w' i role r := by
    intro i role r hi
    have hlt : i.val + 1 < roles.length + 2 := by omega
    have hdigit : digit w (i.val + 1) = digit w' (i.val + 1) := by
      rw [← digit_mod_pow hlt, h, digit_mod_pow hlt]
    rw [decodeOperand, decodeOperand, hdigit]
  cases hf with
  | rrd mk => simp only [formatRRD, hoperand 1 _ _ (by decide), hoperand 2 _ _ (by decide), hoperand 3 _ _ (by decide)]
  | rr mk => simp only [formatRR, hoperand 1 _ _ (by decide), hoperand 2 _ _ (by decide)]
  | d mk => simp only [formatD, hoperand 1 _ _ (by decide)]
  | r mk => simp only [formatR, hoperand 1 _ _ (by decide)]
  | hlt => rfl

theorem decode_cons_of_nonneg {w : Int} (hw : 0 ≤ w) (rest : List Int) : decode (w :: rest) = decodeWord w.toNat rest := by
  rw [decode, if_neg (by omega)]

/-- Settles O3: both words have the row's opcode, and the row's format does not look above the used digits. -/
theorem decodeIgnoresUnusedDigits : Obligations.DecodeIgnoresUnusedDigits := by
  intro row hrow w w' rest hw hw' hop h
  obtain ⟨format, hf, hdecode⟩ := decodeWord_of_row hrow
  lift w to Nat using hw
  lift w' to Nat using hw'
  norm_cast at hop h
  have hop' : w' % 100 = row.code := by
    have hdvd : 100 ∣ 10 ^ (row.roles.length + 2) := Dvd.intro_left _ (pow_add 10 row.roles.length 2).symm
    rw [← hop, ← Nat.mod_mod_of_dvd w hdvd, h, Nat.mod_mod_of_dvd w' hdvd]
  rw [decode_cons_of_nonneg (Int.natCast_nonneg w), decode_cons_of_nonneg (Int.natCast_nonneg w'), Int.toNat_natCast,
    Int.toNat_natCast, hdecode w rest hop, hdecode w' rest hop', hf.congr h rest]

/-! ## The checks of one operand -/

theorem modeOfDigit_of_two_lt {d : Nat} (h : 2 < d) : modeOfDigit d = none := by
  obtain ⟨k, rfl⟩ : ∃ k, d = k + 3 := ⟨d - 3, by omega⟩
  rfl

/-- Settles O4: the digit selects the mode, and each mode has its own check. -/
theorem operandDecodeChecks : Obligations.OperandDecodeChecks := by
  intro w i role raw
  refine ⟨fun h => ?_, fun h hraw => ?_, fun h hraw => ?_, fun h hrole => ?_, fun h hrole => ?_, fun h => ?_⟩
  · simp only [decodeOperand, modeOfDigit_of_two_lt h]
  · simp [decodeOperand, h, modeOfDigit, hraw]
  · simp [decodeOperand, h, modeOfDigit, hraw]
  · simp [decodeOperand, h, modeOfDigit, hrole]
  · simp [decodeOperand, h, modeOfDigit, hrole]
  · simp [decodeOperand, h, modeOfDigit]

/-- Settles O6: the decoder evaluated on each word. -/
theorem sampleWordsDecode : Obligations.SampleWordsDecode := by
  unfold Obligations.SampleWordsDecode
  decide

end Sys2Proof

namespace Sys2Proof.Machine

/-! ## The resolver, mode by mode -/

theorem narrow_eq_some {c : Config} {x r : Int}
    (h : (c.overflowMode = .wrap ∧ r = wrapW c.wordBits x) ∨
      (c.overflowMode = .fault ∧ isWord c.wordBits x = true ∧ r = x)) : narrow c x = some r := by
  rcases h with ⟨hm, rfl⟩ | ⟨hm, hx, rfl⟩
  · exact narrow_wrap hm x
  · exact narrow_fits hm hx

theorem positionAddress_of_nonneg {r : Int} (h : 0 ≤ r) (i : Fin 4) : State.positionAddress i r = .ok r.toNat :=
  if_neg (by omega)

theorem positionAddress_of_neg {r : Int} (h : r < 0) (i : Fin 4) :
    State.positionAddress i r = .error ⟨.negativePositionalParam, i, r⟩ := if_pos h

namespace State

variable (s : State) (i : Fin 4) {r ea : Int}

theorem relativeAddress_of_nonneg (h : narrow s.cfg (s.rb + r) = some ea) (hea : 0 ≤ ea) :
    s.relativeAddress i r = .ok ea.toNat := by
  rw [relativeAddress_of_narrow h, if_neg (by omega)]

theorem relativeAddress_of_neg (h : narrow s.cfg (s.rb + r) = some ea) (hea : ea < 0) :
    s.relativeAddress i r = .error ⟨.invalidAddress, i, ea⟩ := by
  rw [relativeAddress_of_narrow h, if_pos hea]

theorem withinCapacity_of_lt (h0 : 0 ≤ ea) (h : ea < s.cfg.memCapacity) : s.withinCapacity i ea.toNat = .ok ea.toNat :=
  if_neg (by omega)

theorem withinCapacity_of_le (h0 : 0 ≤ ea) (h : s.cfg.memCapacity ≤ ea) :
    s.withinCapacity i ea.toNat = .error ⟨.capacityExceeded, i, ea⟩ := by
  rw [withinCapacity, if_pos (by omega), Int.toNat_of_nonneg h0]

end State

/-- Settles O9: the address of each mode, then the cell it names. -/
theorem readOperandForms : Obligations.ReadOperandForms := by
  intro s i r
  refine ⟨fun h => ?_, fun h => ?_, rfl, fun hm hw => ?_, fun ea hea => ⟨fun h => ?_, fun h => ?_⟩⟩
  · simp only [State.readOperand, positionAddress_of_nonneg h, bind_ok, pure_eq_ok]
  · simp only [State.readOperand, positionAddress_of_neg h, bind_error]
  · simp only [State.readOperand, State.relativeAddress_of_overflow hm hw, bind_error]
  · simp only [State.readOperand, s.relativeAddress_of_nonneg i (narrow_eq_some hea) h, bind_ok, pure_eq_ok]
  · simp only [State.readOperand, s.relativeAddress_of_neg i (narrow_eq_some hea) h, bind_error]

/-- Settles O10: the address of each mode, then the capacity check. -/
theorem destinationForms : Obligations.DestinationForms := by
  intro s i r
  refine ⟨fun h => ?_, fun h hc => ?_, fun h hc => ?_, rfl, fun hm hw => ?_,
    fun ea hea => ⟨fun h => ?_, fun h hc => ?_, fun h hc => ?_⟩⟩
  · simp only [State.destAddress, positionAddress_of_neg h, bind_error]
  · simp only [State.destAddress, positionAddress_of_nonneg h, bind_ok, s.withinCapacity_of_lt i h hc]
  · simp only [State.destAddress, positionAddress_of_nonneg h, bind_ok, s.withinCapacity_of_le i h hc]
  · simp only [State.destAddress, State.relativeAddress_of_overflow hm hw, bind_error]
  · simp only [State.destAddress, s.relativeAddress_of_neg i (narrow_eq_some hea) h, bind_error]
  · simp only [State.destAddress, s.relativeAddress_of_nonneg i (narrow_eq_some hea) h, bind_ok,
      s.withinCapacity_of_lt i h hc]
  · simp only [State.destAddress, s.relativeAddress_of_nonneg i (narrow_eq_some hea) h, bind_ok,
      s.withinCapacity_of_le i h hc]

/-! ## The first operand that does not resolve -/

theorem settle_error (s : State) (e : Raise) : s.settle (.error e) = .next (s.raise e) := rfl

section Operands

variable {a b d : Param} {i : Instr} (s : State)

/-- The instructions with a read operand 1 resolve it first. -/
theorem exec_resolves_first
    (hi : i ∈ [Instr.add a b d, .mul a b d, .lt a b d, .eq a b d, .jt a b, .jf a b, .output a, .arb a]) :
    ∃ f, exec i s = s.settle (s.readOperand 1 a >>= f) := by
  simp only [List.mem_cons, List.not_mem_nil, or_false] at hi
  rcases hi with rfl | rfl | rfl | rfl | rfl | rfl | rfl | rfl <;> exact ⟨_, rfl⟩

/-- Those with a read operand 2 resolve it next. -/
theorem exec_resolves_second
    (hi : i ∈ [Instr.add a b d, .mul a b d, .lt a b d, .eq a b d, .jt a b, .jf a b]) :
    ∃ f : Int → Int → Except Raise State,
      exec i s = s.settle (s.readOperand 1 a >>= fun x => s.readOperand 2 b >>= f x) := by
  simp only [List.mem_cons, List.not_mem_nil, or_false] at hi
  rcases hi with rfl | rfl | rfl | rfl | rfl | rfl <;> exact ⟨_, rfl⟩

end Operands

/-- Settles O21: each instruction resolves its operands in order, and the first error is what it settles. -/
theorem firstOperandFaultIsTaken : Obligations.FirstOperandFaultIsTaken := by
  intro a b d s x y e
  refine ⟨fun h1 i hi => ?_, fun h1 h2 i hi => ?_, fun h1 h2 h3 i hi => ?_, fun h1 => ?_⟩
  · obtain ⟨f, hf⟩ := exec_resolves_first s hi
    rw [hf, h1, bind_error, settle_error]
  · obtain ⟨f, hf⟩ := exec_resolves_second s hi
    rw [hf, h1, bind_ok, h2, bind_error, settle_error]
  · obtain ⟨op, hop⟩ := exec_eq_execRRD hi s
    rw [hop, execRRD, h1, bind_ok, h2, bind_ok, h3, bind_error, settle_error]
  · rw [exec, execIn, h1, bind_error, settle_error]

/-! ## What the step fetches -/

/-- Settles O25: the step's last branch. -/
theorem stepRunsDecodedInstruction : Obligations.StepRunsDecodedInstruction :=
  fun _ _ hlive hi => step_of_decode_eq_ok hlive hi

theorem step_of_decode_eq_error {s : State} {e : DecodeError} (hlive : s.rs.terminal = false)
    (he : decode s.fetchCells = .error e) : step s = .next (s.beginStep.raise (Raise.ofDecode e)) := by
  simp [step, hlive, he]

section Fetch

variable {s : State}

theorem fetchCells_of_extent_le (h : s.extent ≤ s.pc) : s.fetchCells = [] := by
  rw [← List.length_eq_zero_iff, fetchCells_length]
  omega

/-- The first cells given to the decoder, where they lie below the extent: those from `pc` on. -/
theorem fetchCells_prefix {n : Nat} (hn : n ≤ maxSize) (h : s.pc + n ≤ s.extent) :
    (List.range n).map (fun k => s.memRead (s.pc + k)) <+: s.fetchCells := by
  rw [List.prefix_iff_getElem?]
  intro k hk
  rw [List.length_map, List.length_range] at hk
  rw [fetchCells_getElem?, if_pos (by omega), List.getElem_map, List.getElem_range]

theorem fetchCells_of_lt (h : s.pc < s.extent) : ∃ rest, s.fetchCells = s.memRead s.pc :: rest := by
  obtain ⟨rest, hrest⟩ := fetchCells_prefix (n := 1) (by decide) h
  exact ⟨rest, hrest.symm⟩

end Fetch

end Sys2Proof.Machine

namespace Sys2Proof

/-! ## What the decoder rejects before it looks at an operand -/

/-- A format given fewer cells than it has operands rejects the slice (rule R102). -/
theorem FormatOf.of_short {roles : List Role} {format : Nat → List Int → Except DecodeError Instr}
    (hf : FormatOf roles format) (w : Nat) {rest : List Int} (h : rest.length < roles.length) :
    format w rest = .error (.missingParams (roles.length + 1)) := by
  cases hf with
  | rrd mk =>
    match rest with
    | [] | [_] | [_, _] => rfl
    | _ :: _ :: _ :: _ => simp at h; omega
  | rr mk =>
    match rest with
    | [] | [_] => rfl
    | _ :: _ :: _ => simp at h
  | d mk =>
    match rest with
    | [] => rfl
  | r mk =>
    match rest with
    | [] => rfl
  | hlt => simp at h

/-- An opcode outside the table is rejected (rule R101). -/
theorem decodeWord_of_illegal {w : Nat} (h : opcodeOf w ∉ [1, 2, 3, 4, 5, 6, 7, 8, 9, 99]) (rest : List Int) :
    decodeWord w rest = .error (.invalidOpcode (opcodeOf w : Nat)) := by
  unfold decodeWord
  split <;> simp_all

end Sys2Proof

namespace Sys2Proof.Machine

section Rejected

variable {s : State}

theorem decode_fetchCells_of_extent_le (h : s.extent ≤ s.pc) : decode s.fetchCells = .error (.missingParams 1) := by
  rw [fetchCells_of_extent_le h]
  rfl

theorem decode_fetchCells_of_neg (h : s.pc < s.extent) (hw : s.memRead s.pc < 0) :
    decode s.fetchCells = .error (.invalidOpcode ((s.memRead s.pc).tmod 100)) := by
  obtain ⟨rest, hrest⟩ := fetchCells_of_lt h
  rw [hrest, decode, if_pos hw]

theorem decode_fetchCells_of_illegal (h : s.pc < s.extent) (hw : 0 ≤ s.memRead s.pc)
    (hop : opcodeOf (s.memRead s.pc).toNat ∉ [1, 2, 3, 4, 5, 6, 7, 8, 9, 99]) :
    decode s.fetchCells = .error (.invalidOpcode (opcodeOf (s.memRead s.pc).toNat : Nat)) := by
  obtain ⟨rest, hrest⟩ := fetchCells_of_lt h
  rw [hrest, decode_cons_of_nonneg hw, decodeWord_of_illegal hop]

theorem decode_fetchCells_of_truncated (h : s.pc < s.extent) (hw : 0 ≤ s.memRead s.pc) {row : OpcodeRow}
    (hrow : row ∈ opcodeTable) (hop : opcodeOf (s.memRead s.pc).toNat = row.code)
    (hshort : s.extent < s.pc + (row.roles.length + 1)) :
    decode s.fetchCells = .error (.missingParams (row.roles.length + 1)) := by
  obtain ⟨rest, hrest⟩ := fetchCells_of_lt h
  obtain ⟨format, hf, hdecode⟩ := decodeWord_of_row hrow
  have hlen := fetchCells_length s
  rw [hrest, List.length_cons] at hlen
  rw [hrest, decode_cons_of_nonneg hw, hdecode _ rest hop, hf.of_short _ (by omega)]

end Rejected

/-- Settles O27: the decoder is given no cell at all, or fewer than the row's format asks for. -/
theorem missingParamsIsRaised : Obligations.MissingParamsIsRaised := by
  intro s hlive
  refine ⟨fun h => ?_, fun row hrow hpc hw hop hshort => ?_⟩
  · exact step_of_decode_eq_error hlive (decode_fetchCells_of_extent_le h)
  · have hcode : opcodeOf (s.memRead s.pc).toNat = row.code := by
      rw [opcodeOf]
      omega
    exact step_of_decode_eq_error hlive (decode_fetchCells_of_truncated hpc hw hrow hcode hshort)

/-- Settles O28: the sign of the word, then its two low digits. -/
theorem invalidOpcodeIsRaised : Obligations.InvalidOpcodeIsRaised := by
  intro s hlive hpc
  refine ⟨fun hw => ⟨?_, ?_, ?_⟩, fun hw hop => ?_⟩
  · exact Int.lt_tmod_of_pos _ (by decide)
  · have hneg : 0 ≤ (-s.memRead s.pc).tmod 100 := Int.tmod_nonneg _ (by omega)
    rw [Int.neg_tmod] at hneg
    omega
  · exact step_of_decode_eq_error hlive (decode_fetchCells_of_neg hpc hw)
  · have hvalue : s.memRead s.pc % 100 = (opcodeOf (s.memRead s.pc).toNat : Nat) := by
      rw [opcodeOf]
      omega
    rw [hvalue] at hop ⊢
    have hillegal : opcodeOf (s.memRead s.pc).toNat ∉ [1, 2, 3, 4, 5, 6, 7, 8, 9, 99] := by
      simp only [List.mem_cons, List.not_mem_nil, or_false] at hop ⊢
      omega
    exact step_of_decode_eq_error hlive (decode_fetchCells_of_illegal hpc hw hillegal)

end Sys2Proof.Machine

namespace Sys2Proof.Machine.Reference

/-! ## Answers guarded by the flat transcription's checks -/

/-- A value, unless a check fails: then the fault of the first that does (rule R310). -/
def guarded {α : Type} (cs : List (Option Raise)) (v : α) : Except Raise α :=
  match cs.findSome? id with
  | some r => .error r
  | none => .ok v

section Guarded

variable {α β : Type} {cs ds : List (Option Raise)}

theorem guarded_of_pass (h : cs.findSome? id = none) (v : α) : guarded cs v = .ok v := by rw [guarded, h]

theorem eq_of_guarded_eq_ok {v w : α} (h : guarded cs v = .ok w) : cs.findSome? id = none ∧ v = w := by
  cases hcs : cs.findSome? id <;> simp [guarded, hcs] at h ⊢
  exact h

@[simp] theorem guarded_nil (v : α) : guarded [] v = .ok v := rfl

@[simp] theorem guarded_cons (fails : Bool) (r : Raise) (v : α) :
    guarded (check fails r :: cs) v = if fails then .error r else guarded cs v := by
  cases fails <;> rfl

@[simp] theorem check_eq_none {fails : Bool} {r : Raise} : check fails r = none ↔ fails = false := by
  cases fails <;> simp [check]

/-- Answers chained: the second's checks come after the first's, and count only where none of those fails. -/
theorem guarded_bind {x : Except Raise α} {v : α} {w : β} {f : α → Except Raise β} (hx : x = guarded cs v)
    (hf : cs.findSome? id = none → f v = guarded ds w) : x >>= f = guarded (cs ++ ds) w := by
  subst hx
  cases h : cs.findSome? id with
  | some r => simp [guarded, List.findSome?_append, h]
  | none => rw [guarded_of_pass h, bind_ok, hf h, guarded, guarded, List.findSome?_append, h, Option.none_or]

/-- The same of results of the decoder, as the faults they raise. -/
theorem mapError_guarded_bind {x : Except DecodeError α} {v : α} {w : β} {f : α → Except DecodeError β}
    (hx : x.mapError Raise.ofDecode = guarded cs v)
    (hf : (f v).mapError Raise.ofDecode = guarded ds w) :
    (x >>= f).mapError Raise.ofDecode = guarded (cs ++ ds) w := by
  have hbind : (x >>= f).mapError Raise.ofDecode =
      x.mapError Raise.ofDecode >>= fun a => (f a).mapError Raise.ofDecode := by cases x <;> rfl
  rw [hbind]
  exact guarded_bind hx fun _ => hf

theorem guarded_append (v : α) (w : β) : guarded (cs ++ ds) w = guarded cs v >>= fun _ => guarded ds w :=
  (guarded_bind (f := fun _ => guarded ds w) rfl fun _ => rfl).symm

theorem guarded_map {v : α} {f : α → β} : (guarded cs v >>= fun a => pure (f a)) = guarded cs (f v) := by
  cases h : cs.findSome? id <;> simp [guarded, h]

end Guarded

theorem stepState_of_live {s : State} (hlive : s.rs.terminal = false) :
    .next (stepState s) = s.beginStep.settle (guarded (checks s.beginStep) (effect s.beginStep)) := by
  rw [stepState, if_neg (by simp [hlive]), guarded, ← firstFailure, State.beginStep]
  cases firstFailure { s with outDrop := none } <;> rfl

/-! ## The operands the flat transcription decodes -/

variable {s : State}

/-- Operand `i` as a term of the machine. A mode digit of 3 to 9, which is no mode, never gets past the checks. -/
def operand (s : State) (i : Nat) : Param := ⟨(modeOfDigit (mode s i)).getD .relative, raw s i⟩

theorem mode_eq_digit (s : State) (i : Nat) : mode s i = digit (word s).toNat (i + 1) := rfl

theorem decodeOperand_guarded {i : Fin 4} {role : Role} (hrole : isDest (op s) i = decide (role = .dest)) :
    (decodeOperand (word s).toNat i role (raw s i)).mapError Raise.ofDecode =
      guarded (decodeChecks s i) (operand s i) := by
  obtain ⟨hbad, hneg, hpos, hdest, himm, hrel⟩ := operandDecodeChecks (word s).toNat i role (raw s i)
  match hm : mode s i with
  | 0 =>
    by_cases hraw : raw s i < 0
    · simp [hneg hm hraw, decodeChecks, hm, hraw, Except.mapError, Raise.ofDecode]
    · simp [hpos hm (by omega), decodeChecks, hm, hraw, Except.mapError, operand, modeOfDigit]
  | 1 =>
    cases role with
    | dest => simp [hdest hm rfl, decodeChecks, hm, hrole, Except.mapError, Raise.ofDecode]
    | read => simp [himm hm rfl, decodeChecks, hm, hrole, Except.mapError, operand, modeOfDigit]
  | 2 => simp [hrel hm, decodeChecks, hm, Except.mapError, operand, modeOfDigit]
  | d + 3 =>
    have hlarge : 2 < mode s i := by omega
    simp [hbad hlarge, ← mode_eq_digit, decodeChecks, hlarge, Except.mapError, Raise.ofDecode]

/-! ## The decoder is the first half of the checks -/

theorem isDest_RRD {o : Nat} (h : o ∈ [1, 2, 7, 8]) (i : Nat) : isDest o i = decide (i = 3) := by
  have ho : o ≠ 3 := by rintro rfl; simp at h
  simp only [isDest, h, ho, decide_true, decide_false, Bool.true_and, Bool.false_and, Bool.or_false]

/-- Operands are read only, but for `IN` and the format `RRD` (rule R95). -/
theorem isDest_of_notMem {o : Nat} (h : o ∉ [1, 2, 3, 7, 8]) (i : Nat) : isDest o i = false := by
  simp only [List.mem_cons, List.not_mem_nil, or_false, not_or] at h
  simp [isDest, h]

section Formats

variable (t : List Int)

theorem formatRRD_guarded (h : op s ∈ [1, 2, 7, 8]) (mk : Param → Param → Param → Instr) :
    (formatRRD mk (word s).toNat (raw s 1 :: raw s 2 :: raw s 3 :: t)).mapError Raise.ofDecode =
      guarded ([1, 2, 3].flatMap (decodeChecks s)) (mk (operand s 1) (operand s 2) (operand s 3)) :=
  mapError_guarded_bind (decodeOperand_guarded (i := 1) (isDest_RRD h 1)) <|
    mapError_guarded_bind (decodeOperand_guarded (i := 2) (isDest_RRD h 2)) <|
    mapError_guarded_bind (decodeOperand_guarded (i := 3) (isDest_RRD h 3)) rfl

theorem formatRR_guarded (h : op s ∉ [1, 2, 3, 7, 8]) (mk : Param → Param → Instr) :
    (formatRR mk (word s).toNat (raw s 1 :: raw s 2 :: t)).mapError Raise.ofDecode =
      guarded ([1, 2].flatMap (decodeChecks s)) (mk (operand s 1) (operand s 2)) :=
  mapError_guarded_bind (decodeOperand_guarded (i := 1) (isDest_of_notMem h 1)) <|
    mapError_guarded_bind (decodeOperand_guarded (i := 2) (isDest_of_notMem h 2)) rfl

theorem formatR_guarded (h : op s ∉ [1, 2, 3, 7, 8]) (mk : Param → Instr) :
    (formatR mk (word s).toNat (raw s 1 :: t)).mapError Raise.ofDecode =
      guarded ([1].flatMap (decodeChecks s)) (mk (operand s 1)) :=
  mapError_guarded_bind (decodeOperand_guarded (i := 1) (isDest_of_notMem h 1)) rfl

theorem formatD_guarded (h : isDest (op s) 1 = true) (mk : Param → Instr) :
    (formatD mk (word s).toNat (raw s 1 :: t)).mapError Raise.ofDecode =
      guarded ([1].flatMap (decodeChecks s)) (mk (operand s 1)) :=
  mapError_guarded_bind (decodeOperand_guarded (i := 1) h) rfl

end Formats

/-! ## The resolver -/

theorem orOverflow_guarded (x : Int) (i : Fin 4) (v : Int) :
    orOverflow (narrow s.cfg x) i v = guarded [check (overflows s x) ⟨.arithOverflow, i, v⟩] (reduce s x) := by
  cases hm : s.cfg.overflowMode with
  | wrap => simp [narrow_wrap hm, orOverflow, overflows, reduce, hm]
  | fault =>
    cases hx : isWord s.cfg.wordBits x with
    | true => simp [narrow_fits hm hx, orOverflow, overflows, reduce, hm, hx]
    | false => simp [narrow_overflow hm hx, orOverflow, overflows, hm, hx]

/-- Operand `i` passes its decode-time checks. -/
def Passes (s : State) (i : Nat) : Prop := (decodeChecks s i).findSome? id = none

theorem passes_iff {i : Nat} :
    Passes s i ↔ mode s i ≤ 2 ∧ (mode s i = 0 → 0 ≤ raw s i) ∧ (isDest (op s) i = true → mode s i ≠ 1) := by
  simp [Passes, decodeChecks]

theorem relativeAddress_guarded {i : Fin 4} (hm : mode s i = 2) :
    s.relativeAddress i (raw s i) =
      guarded [check (overflows s (sum s i)) ⟨.arithOverflow, i, raw s i⟩,
        check (decide (ea s i < 0)) ⟨.invalidAddress, i, ea s i⟩] (ea s i).toNat := by
  have hea : ea s i = reduce s (sum s i) := by simp [ea, hm]
  rw [State.relativeAddress, addW, ← sum, orOverflow_guarded, ← hea]
  exact guarded_bind (ds := [check (decide (ea s i < 0)) ⟨.invalidAddress, i, ea s i⟩]) rfl fun _ => by simp

theorem readOperand_guarded {i : Fin 4} (hpass : Passes s i) (hread : isDest (op s) i = false) :
    s.readOperand i (operand s i) = guarded (resolveChecks s i) (val s i) := by
  obtain ⟨hdigit, hpos, -⟩ := passes_iff.mp hpass
  match hm : mode s i with
  | 0 =>
    simp [operand, hm, modeOfDigit, State.readOperand, positionAddress_of_nonneg (hpos hm), resolveChecks, hread, val, ea]
  | 1 => simp [operand, hm, modeOfDigit, State.readOperand, resolveChecks, hread, val]
  | 2 =>
    have hval : val s i = s.memRead (ea s i).toNat := by simp [val, hm]
    simp only [operand, hm, modeOfDigit, Option.getD_some, State.readOperand, relativeAddress_guarded hm, guarded_map, hval]
    simp [resolveChecks, hm, hread]
  | d + 3 => omega

theorem withinCapacity_guarded {i : Fin 4} (h : 0 ≤ ea s i) :
    s.withinCapacity i (ea s i).toNat =
      guarded [check (decide ((s.cfg.memCapacity : Int) ≤ ea s i)) ⟨.capacityExceeded, i, ea s i⟩] (ea s i).toNat := by
  by_cases hc : (s.cfg.memCapacity : Int) ≤ ea s i
  · simp [s.withinCapacity_of_le i h hc, hc]
  · simp [s.withinCapacity_of_lt i h (by omega), hc]

theorem destAddress_guarded {i : Fin 4} (hpass : Passes s i) (hdest : isDest (op s) i = true) :
    s.destAddress i (operand s i) = guarded (resolveChecks s i) (ea s i).toNat := by
  obtain ⟨hdigit, hpos, himm⟩ := passes_iff.mp hpass
  match hm : mode s i with
  | 0 =>
    have hea : ea s i = raw s i := by simp [ea, hm]
    have hcap := withinCapacity_guarded (i := i) (hea ▸ hpos hm)
    rw [hea] at hcap
    simp [operand, hm, modeOfDigit, State.destAddress, positionAddress_of_nonneg (hpos hm), resolveChecks, hdest, hea, hcap]
  | 1 => exact absurd hm (himm hdest)
  | 2 =>
    simp only [operand, hm, modeOfDigit, Option.getD_some, State.destAddress]
    rw [guarded_bind (relativeAddress_guarded hm) fun hea => withinCapacity_guarded (by simp at hea; exact hea.2)]
    simp [resolveChecks, hm, hdest]
  | d + 3 => omega

/-! ## The instruction a word and its operands make -/

/-- The instruction of the opcode and the operands, where the checks pass. -/
def fetched (s : State) : Instr :=
  match op s with
  | 1 => .add (operand s 1) (operand s 2) (operand s 3)
  | 2 => .mul (operand s 1) (operand s 2) (operand s 3)
  | 3 => .input (operand s 1)
  | 4 => .output (operand s 1)
  | 5 => .jt (operand s 1) (operand s 2)
  | 6 => .jf (operand s 1) (operand s 2)
  | 7 => .lt (operand s 1) (operand s 2) (operand s 3)
  | 8 => .eq (operand s 1) (operand s 2) (operand s 3)
  | 9 => .arb (operand s 1)
  | _ => .hlt

/-- The checks of the instruction word (rule R310, points 1 to 3). -/
def fetchChecks (s : State) : List (Option Raise) :=
  [ check (decide (s.extent ≤ s.pc)) ⟨.missingParams, 0, 1⟩,
    check (decide (word s < 0)) ⟨.invalidOpcode, 0, (word s).tmod 100⟩,
    check (!legalOpcode (op s)) ⟨.invalidOpcode, 0, op s⟩,
    check (decide (s.extent < s.pc + size s)) ⟨.missingParams, 0, size s⟩ ]

theorem legalOpcode_cases {o : Nat} (h : legalOpcode o = true) :
    o = 1 ∨ o = 2 ∨ o = 3 ∨ o = 4 ∨ o = 5 ∨ o = 6 ∨ o = 7 ∨ o = 8 ∨ o = 9 ∨ o = 99 := by
  simpa using of_decide_eq_true h

/-- A legal opcode has its row in the table, with as many operands. -/
theorem exists_row_of_legalOpcode {o : Nat} (h : legalOpcode o = true) :
    ∃ row ∈ opcodeTable, row.code = o ∧ row.roles.length = arity o := by
  have hrows : ∀ o ∈ [1, 2, 3, 4, 5, 6, 7, 8, 9, 99],
      ∃ row ∈ opcodeTable, row.code = o ∧ row.roles.length = arity o := by decide
  exact hrows o (of_decide_eq_true h)

/-- Operand cells that lie below the extent are given to the decoder after the word. -/
theorem fetchCells_eq_word_cons (hfits : s.pc + size s ≤ s.extent) :
    ∃ t, s.fetchCells = word s :: ((operandIndexes s).map (raw s) ++ t) := by
  have hsize : size s ≤ maxSize := by
    unfold size arity maxSize
    split_ifs <;> omega
  obtain ⟨t, ht⟩ := fetchCells_prefix hsize hfits
  refine ⟨t, ht.symm.trans ?_⟩
  rw [size, List.range_succ_eq_map, operandIndexes, List.map_cons, List.map_map, List.map_map]
  rfl

theorem decodeWord_guarded (hlegal : legalOpcode (op s) = true) (t : List Int) :
    (decodeWord (word s).toNat ((operandIndexes s).map (raw s) ++ t)).mapError Raise.ofDecode =
      guarded ((operandIndexes s).flatMap (decodeChecks s)) (fetched s) := by
  have hcode : opcodeOf (word s).toNat = op s := rfl
  rcases legalOpcode_cases hlegal with h | h | h | h | h | h | h | h | h | h <;>
    simp only [decodeWord, hcode, operandIndexes, fetched, h]
  · exact formatRRD_guarded t (by simp [h]) .add
  · exact formatRRD_guarded t (by simp [h]) .mul
  · exact formatD_guarded t (by simp [isDest, h]) .input
  · exact formatR_guarded t (by simp [h]) .output
  · exact formatRR_guarded t (by simp [h]) .jt
  · exact formatRR_guarded t (by simp [h]) .jf
  · exact formatRRD_guarded t (by simp [h]) .lt
  · exact formatRRD_guarded t (by simp [h]) .eq
  · exact formatR_guarded t (by simp [h]) .arb
  · rfl

/-- What the machine decodes, and the faults of its rejections, are the first half of the flat checks (rule R310, points 1
to 4). -/
theorem decode_guarded (s : State) :
    (decode s.fetchCells).mapError Raise.ofDecode =
      guarded (fetchChecks s ++ (operandIndexes s).flatMap (decodeChecks s)) (fetched s) := by
  by_cases hpc : s.extent ≤ s.pc
  · simp [decode_fetchCells_of_extent_le hpc, Except.mapError, Raise.ofDecode, fetchChecks, hpc]
  have hpc' : s.pc < s.extent := not_le.mp hpc
  by_cases hw : word s < 0
  · have hdecode : decode s.fetchCells = .error (.invalidOpcode ((word s).tmod 100)) := decode_fetchCells_of_neg hpc' hw
    simp [hdecode, Except.mapError, Raise.ofDecode, fetchChecks, hpc, hw]
  have hw' : 0 ≤ word s := not_lt.mp hw
  cases hlegal : legalOpcode (op s) with
  | false =>
    have hdecode : decode s.fetchCells = .error (.invalidOpcode (op s)) :=
      decode_fetchCells_of_illegal hpc' hw' (of_decide_eq_false hlegal)
    simp [hdecode, Except.mapError, Raise.ofDecode, fetchChecks, hpc, hw, hlegal]
  | true =>
    by_cases hfits : s.extent < s.pc + size s
    · have hdecode : decode s.fetchCells = .error (.missingParams (size s)) := by
        obtain ⟨row, hrow, hcode, hroles⟩ := exists_row_of_legalOpcode hlegal
        rw [size, ← hroles] at hfits ⊢
        exact decode_fetchCells_of_truncated hpc' hw' hrow hcode.symm hfits
      simp [hdecode, Except.mapError, Raise.ofDecode, fetchChecks, hpc, hw, hlegal, hfits]
    · obtain ⟨t, ht⟩ := fetchCells_eq_word_cons (not_lt.mp hfits)
      rw [ht, decode_cons_of_nonneg hw', decodeWord_guarded hlegal]
      simp [fetchChecks, hpc, hw, hlegal, hfits]

/-! ## An instruction is the second half of the checks and its execute rule -/

/-- The instructions that check nothing in execute (rule R310, point 6). -/
theorem guarded_executeChecks_of_notMem {α : Type} (h : op s ∉ [1, 2, 5, 6, 9]) (v : α) :
    guarded (executeChecks s) v = .ok v := by
  simp only [List.mem_cons, List.not_mem_nil, or_false, not_or] at h
  simp [executeChecks, taken, h]

theorem execRRD_guarded (h : op s ∈ [1, 2, 7, 8]) (hpass : ∀ i ∈ [1, 2, 3], Passes s i)
    {f : Int → Int → Except Raise Int} {r : Int} (hf : f (val s 1) (val s 2) = guarded (executeChecks s) r)
    (heffect : effect s = next (s.memWrite (ea s 3).toNat r) 4) :
    execRRD f (operand s 1) (operand s 2) (operand s 3) s =
      s.settle (guarded ([1, 2, 3].flatMap (resolveChecks s) ++ executeChecks s) (effect s)) := by
  have h1 := readOperand_guarded (s := s) (i := 1) (hpass 1 (by decide)) (isDest_RRD h 1)
  have h2 := readOperand_guarded (s := s) (i := 2) (hpass 2 (by decide)) (isDest_RRD h 2)
  have h3 := destAddress_guarded (s := s) (i := 3) (hpass 3 (by decide)) (isDest_RRD h 3)
  simp only [List.flatMap_cons, List.flatMap_nil, List.append_nil, List.append_assoc, heffect]
  exact congrArg s.settle
    (guarded_bind h1 fun _ => guarded_bind h2 fun _ => guarded_bind h3 fun _ => hf ▸ guarded_map)

theorem execJump_guarded (h : op s ∈ [5, 6]) (hpass : ∀ i ∈ [1, 2], Passes s i) {f : Int → Bool}
    (hf : f (val s 1) = taken s) :
    execJump f (operand s 1) (operand s 2) s =
      s.settle (guarded ([1, 2].flatMap (resolveChecks s) ++ executeChecks s) (effect s)) := by
  simp only [List.mem_cons, List.not_mem_nil, or_false] at h
  have hread : op s ∉ [1, 2, 3, 7, 8] := by
    simp only [List.mem_cons, List.not_mem_nil, or_false]
    omega
  have h1 := readOperand_guarded (s := s) (i := 1) (hpass 1 (by decide)) (isDest_of_notMem hread 1)
  have h2 := readOperand_guarded (s := s) (i := 2) (hpass 2 (by decide)) (isDest_of_notMem hread 2)
  have hchecks : executeChecks s =
      [none, none, none, check (taken s && decide (val s 2 < 0)) ⟨.negativeJumpTarget, 2, val s 2⟩] := by
    rcases h with h | h <;> simp [executeChecks, h, check]
  have heffect : effect s = if taken s then s.jumpTo (val s 2).toNat else s.retire 3 := by
    rcases h with h | h <;> simp [effect, h] <;> rfl
  simp only [List.flatMap_cons, List.flatMap_nil, List.append_nil, List.append_assoc]
  refine congrArg s.settle (guarded_bind h1 fun _ => guarded_bind h2 fun _ => ?_)
  change (if f (val s 1) then _ else _) = _
  rw [hf, hchecks, heffect]
  cases taken s with
  | false => rfl
  | true =>
    by_cases htarget : val s 2 < 0 <;> simp [htarget, guarded, check]

theorem execIn_guarded (h : op s = 3) (hpass : Passes s 1) :
    execIn (operand s 1) s = s.settle (guarded ([1].flatMap (resolveChecks s) ++ executeChecks s) (effect s)) := by
  have h1 := destAddress_guarded (s := s) (i := 1) hpass (by simp [isDest, h])
  simp only [List.flatMap_cons, List.flatMap_nil, List.append_nil]
  refine congrArg s.settle (guarded_bind h1 fun _ => ?_)
  rw [guarded_executeChecks_of_notMem (by simp [h])]
  cases hq : s.inp.q with
  | nil =>
    cases hclosed : s.inp.closed with
    | true => simp [effect, h, hq, hclosed, State.terminate, Fifo.close, Fifo.abandon]
    | false => simp [effect, h, hq, hclosed, State.wait]
  | cons v q => simp [effect, h, hq, next, State.retire, Fifo.pop]

theorem execOut_guarded (h : op s = 4) (hpass : Passes s 1) :
    execOut (operand s 1) s = s.settle (guarded ([1].flatMap (resolveChecks s) ++ executeChecks s) (effect s)) := by
  have h1 := readOperand_guarded (s := s) (i := 1) hpass (isDest_of_notMem (by simp [h]) 1)
  simp only [List.flatMap_cons, List.flatMap_nil, List.append_nil]
  refine congrArg s.settle (guarded_bind h1 fun _ => ?_)
  rw [guarded_executeChecks_of_notMem (by simp [h])]
  cases halive : s.out.consumerAlive with
  | false => simp [effect, h, halive, next, State.retire]
  | true =>
    rcases Nat.lt_or_ge s.out.q.length s.out.depth with hroom | hfull
    · simp [effect, h, halive, Fifo.full, hroom, next, State.retire, Fifo.push]
    · simp [effect, h, halive, Fifo.full, hfull, Nat.not_lt.mpr hfull, State.wait]

theorem execArb_guarded (h : op s = 9) (hpass : Passes s 1) :
    execArb (operand s 1) s = s.settle (guarded ([1].flatMap (resolveChecks s) ++ executeChecks s) (effect s)) := by
  have h1 := readOperand_guarded (s := s) (i := 1) hpass (isDest_of_notMem (by simp [h]) 1)
  simp only [List.flatMap_cons, List.flatMap_nil, List.append_nil]
  refine congrArg s.settle (guarded_bind h1 fun _ => ?_)
  have hsum : orOverflow (addW s.cfg s.rb (val s 1)) 0 9 = guarded (executeChecks s) (reduce s (s.rb + val s 1)) := by
    simp [addW, orOverflow_guarded, executeChecks, taken, h]
  have heffect : effect s = { s with rb := reduce s (s.rb + val s 1) }.retire 2 := by
    simp [effect, h, next, State.retire]
  rw [heffect]
  exact hsum ▸ guarded_map

/-- An instruction whose operands pass their decode-time checks runs as the flat transcription says (rule R310, points 5
and 6). -/
theorem exec_guarded (hlegal : legalOpcode (op s) = true) (hpass : ∀ i ∈ operandIndexes s, Passes s i) :
    exec (fetched s) s =
      s.settle (guarded ((operandIndexes s).flatMap (resolveChecks s) ++ executeChecks s) (effect s)) := by
  rcases legalOpcode_cases hlegal with h | h | h | h | h | h | h | h | h | h <;>
    simp only [operandIndexes, fetched, h] at hpass ⊢
  · have hsum : orOverflow (addW s.cfg (val s 1) (val s 2)) 0 1 =
        guarded (executeChecks s) (reduce s (val s 1 + val s 2)) := by
      simp [addW, orOverflow_guarded, executeChecks, taken, h]
    exact execRRD_guarded (by simp [h]) hpass hsum (by simp [effect, h])
  · have hproduct : orOverflow (mulW s.cfg (val s 1) (val s 2)) 0 2 =
        guarded (executeChecks s) (reduce s (val s 1 * val s 2)) := by
      simp [mulW, orOverflow_guarded, executeChecks, taken, h]
    exact execRRD_guarded (by simp [h]) hpass hproduct (by simp [effect, h])
  · exact execIn_guarded h (hpass 1 (by decide))
  · exact execOut_guarded h (hpass 1 (by decide))
  · exact execJump_guarded (by simp [h]) hpass (by simp [taken, h])
  · exact execJump_guarded (by simp [h]) hpass (by simp [taken, h])
  · have hresult := guarded_executeChecks_of_notMem (s := s) (by simp [h]) (lessThan (val s 1) (val s 2))
    exact execRRD_guarded (by simp [h]) hpass hresult.symm (by simp [effect, h, lessThan, truthWord])
  · have hresult := guarded_executeChecks_of_notMem (s := s) (by simp [h]) (equals (val s 1) (val s 2))
    exact execRRD_guarded (by simp [h]) hpass hresult.symm (by simp [effect, h, equals, truthWord])
  · exact execArb_guarded h (hpass 1 (by decide))
  · have hchecks := guarded_executeChecks_of_notMem (s := s) (by simp [h]) (effect s)
    have heffect : effect s = s.terminate .halted := by simp [effect, h, State.terminate, Fifo.close, Fifo.abandon]
    exact (congrArg s.settle (hchecks.trans (congrArg _ heffect))).symm

/-- What the flat transcription answers is its first half of checks, then its second half. -/
theorem guarded_checks (s : State) :
    guarded (checks s) (effect s) =
      guarded (fetchChecks s ++ (operandIndexes s).flatMap (decodeChecks s)) (fetched s) >>= fun _ =>
        guarded ((operandIndexes s).flatMap (resolveChecks s) ++ executeChecks s) (effect s) := by
  rw [← guarded_append, checks, ← fetchChecks, List.append_assoc _ _ (executeChecks s)]

theorem legalOpcode_of_fetchChecks (h : (fetchChecks s).findSome? id = none) : legalOpcode (op s) = true := by
  simp [fetchChecks] at h
  obtain ⟨-, -, hlegal, -⟩ := h
  exact hlegal

/-- Fetched cells that decode make the instruction of the flat transcription, and its decode-time checks pass. -/
theorem fetched_of_decode_eq_ok {i : Instr} (h : decode s.fetchCells = .ok i) :
    i = fetched s ∧ legalOpcode (op s) = true ∧ ∀ k ∈ operandIndexes s, Passes s k := by
  have hguarded := decode_guarded s
  rw [h] at hguarded
  obtain ⟨hpass, hi⟩ := eq_of_guarded_eq_ok hguarded.symm
  rw [List.findSome?_append, Option.or_eq_none_iff] at hpass
  obtain ⟨hfetch, hdecode⟩ := hpass
  refine ⟨hi.symm, legalOpcode_of_fetchChecks hfetch, fun k hk => ?_⟩
  rw [List.findSome?_eq_none_iff] at hdecode
  exact List.findSome?_eq_none_iff.mpr fun c hc => hdecode c (List.mem_flatMap.mpr ⟨k, hk, hc⟩)

end Sys2Proof.Machine.Reference

namespace Sys2Proof.Machine

/-- Settles O31: the decoder is the first half of the flat checks, and the instruction it gives is the second half and its
execute rule. -/
theorem stepIsTheFlatControllerStep : Obligations.StepIsTheFlatControllerStep := by
  intro s
  cases hlive : s.rs.terminal with
  | true => rw [step_of_terminal hlive, Reference.stepState, if_pos hlive]
  | false =>
    have hdecode : (decode s.fetchCells).mapError Raise.ofDecode = _ := Reference.decode_guarded s.beginStep
    rw [Reference.stepState_of_live hlive, Reference.guarded_checks, ← hdecode]
    cases h : decode s.fetchCells with
    | error e => exact step_of_decode_eq_error hlive h
    | ok i =>
      obtain ⟨rfl, hlegal, hpass⟩ := Reference.fetched_of_decode_eq_ok (s := s.beginStep) h
      rw [step_of_decode_eq_ok hlive h]
      exact Reference.exec_guarded hlegal hpass

end Sys2Proof.Machine

namespace Sys2Proof

/-- The canonical cells of format `RRD`: the mode digits stand above the opcode, the raw values follow (rule R109). -/
theorem encode_of_operands_RRD {i : Instr} {a b d : Param} (h : i.operands = [(.read, a), (.read, b), (.dest, d)]) :
    encode i =
      [((i.opcode + 100 * a.mode.digit + 1000 * b.mode.digit + 10000 * d.mode.digit : Nat) : Int), a.raw, b.raw, d.raw] := by
  have hword : i.word = i.opcode + 100 * a.mode.digit + 1000 * b.mode.digit + 10000 * d.mode.digit := by
    simp only [Instr.word, h, List.map_cons, List.map_nil, modeDigits]
    omega
  simp only [encode, hword, h, List.map_cons, List.map_nil]

end Sys2Proof

namespace Sys2Proof.Machine

/-! ## `ADD` and `MUL` -/

section ResolvedRRD

variable {a b d : Param} {s : State} {x y : Int} {dst : Nat} (hx : s.readOperand 1 a = .ok x)
  (hy : s.readOperand 2 b = .ok y) (hd : s.destAddress 3 d = .ok dst)
include hx hy hd

/-- An operation that raises, on operands that resolve, writes nothing: the instruction takes its fault. -/
theorem execRRD_of_error {op : Int → Int → Except Raise Int} {e : Raise} (ho : op x y = .error e) :
    execRRD op a b d s = .next (s.raise e) := by
  rw [execRRD, hx, bind_ok, hy, bind_ok, hd, bind_ok, ho, bind_error, settle_error]

/-- An exact result `z` narrowed and written (rules R13, R142 and R309): its residue where overflow wraps, `z` itself where it
faults and `z` is a word, and else the fault with the opcode `v`. -/
theorem execRRD_narrow {op : Int → Int → Except Raise Int} {z v : Int} (ho : op x y = orOverflow (narrow s.cfg z) 0 v) :
    (s.cfg.overflowMode = .wrap →
      execRRD op a b d s = .next ((s.memWrite dst (wrapW s.cfg.wordBits z)).retire 4)) ∧
    (s.cfg.overflowMode = .fault → isWord s.cfg.wordBits z = true →
      execRRD op a b d s = .next ((s.memWrite dst z).retire 4)) ∧
    (s.cfg.overflowMode = .fault → isWord s.cfg.wordBits z = false →
      execRRD op a b d s = .next (s.raise ⟨.arithOverflow, 0, v⟩)) := by
  refine ⟨fun hwrap => ?_, fun hfault hz => ?_, fun hfault hz => ?_⟩
  · exact execRRD_of_ok hx hy hd (by rw [ho, narrow_wrap hwrap, orOverflow])
  · exact execRRD_of_ok hx hy hd (by rw [ho, narrow_fits hfault hz, orOverflow])
  · exact execRRD_of_error hx hy hd (by rw [ho, narrow_overflow hfault hz, orOverflow])

end ResolvedRRD

/-- Settles O11: the exact result narrowed is the sum. -/
theorem addWritesSum : Obligations.AddWritesSum := fun _ _ _ =>
  ⟨encode_of_operands_RRD rfl, fun _ _ _ _ hx hy hd => execRRD_narrow hx hy hd rfl⟩

/-- Settles O12: the exact result narrowed is the product. -/
theorem mulWritesProduct : Obligations.MulWritesProduct := fun _ _ _ =>
  ⟨encode_of_operands_RRD rfl, fun _ _ _ _ hx hy hd => execRRD_narrow hx hy hd rfl⟩

end Sys2Proof.Machine

namespace Sys2Proof

/-- The canonical cells of formats `R` and `D`: the mode digit stands above the opcode, the raw value follows (rule R109). -/
theorem encode_of_operands_single {i : Instr} {role : Role} {p : Param} (h : i.operands = [(role, p)]) :
    encode i = [((i.opcode + 100 * p.mode.digit : Nat) : Int), p.raw] := by
  simp only [encode, Instr.word, h, List.map_cons, List.map_nil, modeDigits, Nat.mul_zero, Nat.add_zero]

end Sys2Proof

namespace Sys2Proof.Machine

/-! ## `IN` and `OUT` -/

theorem Fifo.full_iff {f : Fifo} : f.full = true ↔ f.depth ≤ f.q.length := by simp [full]

theorem Fifo.not_full_iff {f : Fifo} : f.full = false ↔ f.q.length < f.depth := by simp [full]

theorem Fifo.pop_of_cons {f : Fifo} {v : Int} {q : List Int} (h : f.q = v :: q) : f.pop = { f with q := q } := by
  rw [pop, h, List.tail_cons]

section ResolvedIn

variable {d : Param} {s : State} {dst : Nat} (hd : s.destAddress 1 d = .ok dst)
include hd

/-- `IN` on a queued value pops and writes it (rule R156). -/
theorem exec_input_of_cons {v : Int} {q : List Int} (hq : s.inp.q = v :: q) :
    exec (.input d) s = .next (({ s with inp := { s.inp with q := q } }.memWrite dst v).retire 2) := by
  simp only [exec, execIn, hd, bind_ok, hq, pure_eq_ok, State.settle, Fifo.pop_of_cons hq]

/-- A value pushed into an empty FIFO passes through it. -/
theorem exec_input_of_pushed (hq : s.inp.q = []) (v : Int) :
    exec (.input d) { s with inp := s.inp.push v } = .next ((s.memWrite dst v).retire 2) := by
  have hpushed : (s.inp.push v).q = [v] := by rw [Fifo.push_q, hq, List.nil_append]
  have hemptied : { s.inp.push v with q := [] } = s.inp := by
    rw [← hq]
    rfl
  rw [exec_input_of_cons (s := { s with inp := s.inp.push v }) hd hpushed, hemptied]

/-- `IN` on an empty closed FIFO ends the run (rules R156 and R159). -/
theorem exec_input_of_closed (hq : s.inp.q = []) (hclosed : s.inp.closed = true) :
    exec (.input d) s = .next (s.terminate .inputEnded) := by
  simp only [exec, execIn, hd, bind_ok, hq, pure_eq_ok, State.settle, hclosed, if_true]

/-- `IN` on an empty open FIFO waits (rules R156 and R158). -/
theorem exec_input_of_open (hq : s.inp.q = []) (hopen : s.inp.closed = false) :
    exec (.input d) s = .next (s.wait .waitIn) := by
  simp only [exec, execIn, hd, bind_ok, hq, pure_eq_ok, State.settle, hopen, Bool.false_eq_true, if_false]

end ResolvedIn

section ResolvedOut

variable {a : Param} {s : State} {v : Int} (hv : s.readOperand 1 a = .ok v)
include hv

/-- `OUT` to a consumer that is gone reports its value on `out_drop` (rule R157). -/
theorem exec_output_of_gone (hgone : s.out.consumerAlive = false) :
    exec (.output a) s = .next ({ s with outDrop := some v }.retire 2) := by
  simp only [exec, execOut, hv, bind_ok, pure_eq_ok, State.settle, hgone, Bool.false_eq_true, if_false]

/-- `OUT` to a FIFO with room pushes its value (rule R157). -/
theorem exec_output_of_room (halive : s.out.consumerAlive = true) (hroom : s.out.full = false) :
    exec (.output a) s = .next ({ s with out := s.out.push v }.retire 2) := by
  simp only [exec, execOut, hv, bind_ok, pure_eq_ok, State.settle, halive, hroom, Bool.false_eq_true, if_true, if_false]

/-- `OUT` to a full FIFO waits (rules R157 and R158). -/
theorem exec_output_of_full (halive : s.out.consumerAlive = true) (hfull : s.out.full = true) :
    exec (.output a) s = .next (s.wait .waitOut) := by
  simp only [exec, execOut, hv, bind_ok, pure_eq_ok, State.settle, halive, hfull, if_true]

end ResolvedOut

/-- Settles O15, by the three answers of `IN`; an operand that does not resolve is the first thing it settles. -/
theorem inPopsEndsOrWaits : Obligations.InPopsEndsOrWaits := by
  refine fun d => ⟨encode_of_operands_single rfl, fun s e he => ⟨?_, rfl⟩, fun s dst hd =>
    ⟨fun v q hq => exec_input_of_cons hd hq, exec_input_of_closed hd, exec_input_of_open hd⟩⟩
  rw [exec, execIn, he, bind_error, settle_error]

/-- Settles O16, by the three answers of `OUT`. -/
theorem outPushesDropsOrWaits : Obligations.OutPushesDropsOrWaits := fun _ =>
  ⟨encode_of_operands_single rfl, fun _ _ hv => ⟨exec_output_of_gone hv,
    fun halive hroom => exec_output_of_room hv halive (Fifo.not_full_iff.mpr hroom),
    fun halive hfull => exec_output_of_full hv halive (Fifo.full_iff.mpr hfull)⟩⟩

/-! ## A step that waits, and the attempt after it -/

/-- A step that waits is an `IN` that finds its FIFO empty and open or an `OUT` that finds its FIFO full and its consumer alive,
its operand resolved before (rules R156 to R158). -/
theorem exec_waiting {i : Instr} {s t : State} (h : exec i s = .next t) (hwait : t.rs.waiting = true) :
    (∃ d dst, i = .input d ∧ s.destAddress 1 d = .ok dst ∧ s.inp.q = [] ∧ s.inp.closed = false ∧ t = s.wait .waitIn) ∨
    (∃ a v, i = .output a ∧ s.readOperand 1 a = .ok v ∧ s.out.consumerAlive = true ∧ s.out.full = true ∧
      t = s.wait .waitOut) := by
  have hended := exec_endedBy h
  cases hrs : t.rs <;> rw [hrs] at hwait hended
  case waitIn =>
    obtain ⟨⟨d, rfl⟩, -, -⟩ := hended
    rcases execIn_cases h with ⟨e, rfl⟩ | ⟨dst, hd, ⟨v, q, -, rfl⟩ | ⟨-, -, rfl⟩ | ⟨hq, hopen, rfl⟩⟩
    · cases hrs
    · cases hrs
    · cases hrs
    · exact .inl ⟨d, dst, rfl, hd, hq, hopen, rfl⟩
  case waitOut =>
    obtain ⟨⟨a, rfl⟩, -, -⟩ := hended
    rcases execOut_cases h with ⟨e, rfl⟩ | ⟨v, hv, ⟨-, rfl⟩ | ⟨-, -, rfl⟩ | ⟨halive, hfull, rfl⟩⟩
    · cases hrs
    · cases hrs
    · cases hrs
    · exact .inr ⟨a, v, rfl, hv, halive, hfull, rfl⟩
  all_goals cases hwait

theorem step_waiting {s t : State} (hlive : s.rs.terminal = false) (h : step s = .next t) (hwait : t.rs.waiting = true) :
    (∃ d dst, decode s.fetchCells = .ok (.input d) ∧ s.destAddress 1 d = .ok dst ∧ s.inp.q = [] ∧ s.inp.closed = false ∧
      t = s.beginStep.wait .waitIn) ∨
    (∃ a v, decode s.fetchCells = .ok (.output a) ∧ s.readOperand 1 a = .ok v ∧ s.out.consumerAlive = true ∧
      s.out.full = true ∧ t = s.beginStep.wait .waitOut) := by
  rcases step_cases h with ⟨hend, -⟩ | ⟨-, e, -, rfl⟩ | ⟨-, i, hi, hexec⟩
  · rw [hlive] at hend
    cases hend
  · cases hwait
  · rcases exec_waiting hexec hwait with ⟨d, dst, rfl, hd, hrest⟩ | ⟨a, v, rfl, hv, hrest⟩
    · exact .inl ⟨d, dst, hi, hd, hrest⟩
    · exact .inr ⟨a, v, hi, hv, hrest⟩

/-- The next attempt runs the same instruction, whatever happened to the run state, the FIFOs and `out_drop` in between: none of
them is fetched (rules R107 and R314). -/
theorem step_retries {s : State} {i : Instr} (hi : decode s.fetchCells = .ok i) {rs : RunState} (hrs : rs.terminal = false)
    (inp out : Fifo) (drop : Option Int) :
    step { s with rs := rs, inp := inp, out := out, outDrop := drop } =
      exec i { s with rs := rs, inp := inp, out := out, outDrop := none } :=
  step_of_decode_eq_ok hrs hi

/-- Settles O35: the waiting step is `State.wait` after `State.beginStep`, and the next attempt finds what this one found. -/
theorem waitChangesOnlyRunState : Obligations.WaitChangesOnlyRunState := by
  intro s t hlive ht hwait
  rcases step_waiting hlive ht hwait with ⟨d, dst, hi, hd, hq, hopen, rfl⟩ | ⟨a, v, hi, hv, halive, hfull, rfl⟩
  · exact ⟨rfl, (step_retries hi rfl _ _ _).trans (exec_input_of_open hd hq hopen)⟩
  · exact ⟨rfl, (step_retries hi rfl _ _ _).trans (exec_output_of_full hv halive hfull)⟩

/-! ## The environment's actions -/

theorem State.env_push_eq_some {s t : State} {v : Int} :
    s.env (.push v) = some t ↔ s.inp.canPush s.cfg.wordBits v = true ∧ { s with inp := s.inp.push v } = t := by
  simp [env]

theorem State.env_pop_eq_some {s t : State} :
    s.env .pop = some t ↔ s.out.canPop = true ∧ { s with out := s.out.pop } = t := by
  simp [env]

/-- A FIFO within its depth has room after a pop. -/
theorem Fifo.pop_not_full {f : Fifo} {w : Nat} (h : f.legal w = true) : f.pop.full = false := by
  obtain ⟨hdepth, hlen, -⟩ := legal_iff.mp h
  rw [not_full_iff, pop_q, List.length_tail, pop_depth]
  omega

/-- Settles O36: the attempt after the other agent's action is the same instruction, on a FIFO that now lets it go on. -/
theorem waitEndsByTheOtherAgent : Obligations.WaitEndsByTheOtherAgent := by
  intro s t hinv hlive ht
  refine ⟨fun hrs => ?_, fun hrs => ?_⟩
  · rcases step_waiting hlive ht (by rw [hrs]; rfl) with ⟨d, dst, hi, hd, hq, hopen, rfl⟩ | ⟨a, v, -, -, -, -, rfl⟩
    · refine ⟨d, dst, hi, hd, fun v u hu => ?_, fun u hu => ?_⟩
      · obtain ⟨-, rfl⟩ := State.env_push_eq_some.mp hu
        exact (step_retries hi rfl _ _ _).trans (exec_input_of_pushed (s := s.beginStep.wait .waitIn) hd hq v)
      · obtain rfl := Option.some.inj hu
        exact (step_retries hi rfl _ _ _).trans (exec_input_of_closed hd hq rfl)
    · cases hrs
  · rcases step_waiting hlive ht (by rw [hrs]; rfl) with ⟨d, dst, -, -, -, -, rfl⟩ | ⟨a, v, hi, hv, halive, hfull, rfl⟩
    · cases hrs
    · refine ⟨a, v, hi, hv, fun u hu => ?_, fun u hu => ?_⟩
      · obtain ⟨-, rfl⟩ := State.env_pop_eq_some.mp hu
        exact (step_retries hi rfl _ _ _).trans (exec_output_of_room hv halive (Fifo.pop_not_full hinv.outLegal))
      · obtain rfl := Option.some.inj hu
        exact (step_retries hi rfl _ _ _).trans (exec_output_of_gone hv rfl)

/-! ## The endpoints at the end of a run -/

/-- Settles O41: the invariant says how the two endpoints stand in every run state, and the step keeps it. -/
theorem endingClosesBothEndpoints : Obligations.EndingClosesBothEndpoints := by
  intro s t hinv _ ht
  have after : CoreInv t := stepKeepsInvariant s t hinv ht
  refine ⟨fun hend => ?_, fun hlive => ?_⟩
  · exact ⟨after.outClosed.trans hend, after.inpAlive.trans (congrArg (!·) hend)⟩
  · exact ⟨after.outClosed.trans hlive, after.inpAlive.trans (congrArg (!·) hlive)⟩

/-! ## Values cross a FIFO in order -/

/-- What crossed the ports between `s` and `t` accounts for both queues, in order (rule R153); of the output queue it does while
the consumer is alive, which it never is again once it has abandoned. -/
structure InOrder (s t : State) (x : Trace) : Prop where
  input  : x.popped ++ t.inp.q = s.inp.q ++ x.supplied
  alive  : t.out.consumerAlive = true → s.out.consumerAlive = true
  output : t.out.consumerAlive = true → x.delivered ++ t.out.q = s.out.q ++ x.emitted

namespace InOrder

theorem refl (s : State) : InOrder s s Trace.empty where
  input    := (List.append_nil _).symm
  alive    := id
  output _ := (List.append_nil _).symm

theorem trans {s t u : State} {x y : Trace} (hx : InOrder s t x) (hy : InOrder t u y) : InOrder s u (x.append y) where
  input := by
    simp only [Trace.append]
    rw [List.append_assoc, hy.input, ← List.append_assoc, hx.input, List.append_assoc]
  alive h := hx.alive (hy.alive h)
  output h := by
    simp only [Trace.append]
    rw [List.append_assoc, hy.output h, ← List.append_assoc, hx.output (hy.alive h), List.append_assoc]

/-- A push, a close, a pop or an abandon moves one value at most, and the trace names it. -/
theorem ofEnv {s t : State} {e : EnvEvent} (h : s.env e = some t) : InOrder s t (observeEnv s e) := by
  cases e with
  | push v =>
    obtain ⟨-, rfl⟩ := State.env_push_eq_some.mp h
    exact { refl s with input := rfl }
  | close =>
    obtain rfl := Option.some.inj h
    exact { refl s with }
  | pop =>
    obtain ⟨-, rfl⟩ := State.env_pop_eq_some.mp h
    have hsplit : s.out.q.take 1 ++ s.out.q.tail = s.out.q := by rw [← List.drop_one, List.take_append_drop]
    exact { refl s with output := fun _ => hsplit.trans (List.append_nil _).symm }
  | abandon =>
    obtain rfl := Option.some.inj h
    exact { refl s with
      alive := nofun
      output := nofun }

end InOrder

/-- Only an `OUT` whose consumer is gone raises `out_drop` (rule R157; log entry 6). -/
theorem step_outDrop_of_alive {s t : State} (hlive : s.rs.terminal = false) (h : step s = .next t)
    (halive : s.out.consumerAlive = true) : t.outDrop = none := by
  rcases step_cases h with ⟨hend, -⟩ | ⟨-, e, -, rfl⟩ | ⟨-, i, -, hexec⟩
  · rw [hlive] at hend
    cases hend
  · rfl
  · rcases (exec_frame hexec).outDrop with hsame | ⟨a, rfl⟩
    · exact hsame
    · rcases execOut_cases hexec with ⟨e, rfl⟩ | ⟨v, -, ⟨hgone, -⟩ | ⟨-, -, rfl⟩ | ⟨-, -, rfl⟩⟩
      · rfl
      · cases halive.symm.trans hgone
      · rfl
      · rfl

/-- What a step pops is what its input queue lost in front, what it emits to a live consumer what its output queue gained at the
end. -/
theorem InOrder.ofStep {s t : State} (h : step s = .next t) : InOrder s t (observeStep s t) := by
  cases hlive : s.rs.terminal with
  | true =>
    obtain rfl : s = t := Host.Outcome.next.inj ((step_of_terminal hlive).symm.trans h)
    rw [observeStep, if_pos hlive]
    exact .refl s
  | false =>
    obtain ⟨hpop, hpush, -, halive, -⟩ := onlyInPopsAndOnlyOutPushes s t h
    have hinp : t.inp.q <:+ s.inp.q := by
      by_cases hq : t.inp.q = s.inp.q
      · rw [hq]
      · obtain ⟨-, v, hv⟩ := hpop hq
        exact ⟨[v], hv.symm⟩
    have hout : s.out.q <+: t.out.q := by
      by_cases hq : t.out.q = s.out.q
      · rw [hq]
      · obtain ⟨-, -, v, hv⟩ := hpush hq
        exact ⟨[v], hv.symm⟩
    rw [observeStep, if_neg (by simp [hlive])]
    refine ⟨?_, fun ht => halive ▸ ht, fun ht => ?_⟩
    · exact (List.suffix_iff_eq_append.mp hinp).trans (List.append_nil _).symm
    · simp only [step_outDrop_of_alive hlive h (halive ▸ ht)]
      exact (List.prefix_iff_eq_append.mp hout).symm

theorem InOrder.ofEvent {e : Event} {s t : State} {x : Trace} (h : eventStep e s = some (t, x)) : InOrder s t x := by
  cases e with
  | env e =>
    obtain ⟨u, hu, hx⟩ := Option.map_eq_some_iff.mp h
    obtain ⟨rfl, rfl⟩ := Prod.mk.inj hx
    exact .ofEnv hu
  | step =>
    obtain ⟨u, hu⟩ := step_answers s
    simp only [eventStep, hu] at h
    obtain ⟨rfl, rfl⟩ := Prod.mk.inj (Option.some.inj h)
    exact .ofStep hu

theorem runEvents_cons_eq_some {e : Event} {es : List Event} {s u : State} {z : Trace}
    (h : runEvents (e :: es) s = some (u, z)) :
    ∃ t x y, eventStep e s = some (t, x) ∧ runEvents es t = some (u, y) ∧ z = x.append y := by
  rw [runEvents] at h
  split at h
  · cases h
  next t x hx =>
    obtain ⟨⟨_, y⟩, hy, hz⟩ := Option.map_eq_some_iff.mp h
    obtain ⟨rfl, rfl⟩ := Prod.mk.inj hz
    exact ⟨t, x, y, hx, hy, rfl⟩

theorem InOrder.ofRun {es : List Event} : ∀ {s t : State} {tr : Trace}, runEvents es s = some (t, tr) → InOrder s t tr := by
  induction es with
  | nil =>
    intro s t tr h
    obtain ⟨rfl, rfl⟩ := Prod.mk.inj (Option.some.inj h)
    exact .refl s
  | cons e es ih =>
    intro s t tr h
    obtain ⟨u, x, y, hx, hy, rfl⟩ := runEvents_cons_eq_some h
    exact (InOrder.ofEvent hx).trans (ih hy)

/-- Settles O49, by induction on the events: each accounts for the queues, and so do two in a row. -/
theorem fifosDeliverInOrder : Obligations.FifosDeliverInOrder := by
  intro es s t tr h
  have inOrder : InOrder s t tr := .ofRun h
  exact ⟨inOrder.input, inOrder.output⟩

/-! ## What every operation on a FIFO keeps -/

/-- What holds between a FIFO and the same FIFO later (rule R152). -/
structure Fifo.EvolvesTo (x y : Fifo) : Prop where
  depth         : y.depth = x.depth
  closed        : x.closed = true → y.closed = true
  consumerAlive : y.consumerAlive = true → x.consumerAlive = true
  bound         : x.q.length ≤ x.depth → y.q.length ≤ y.depth

namespace Fifo.EvolvesTo

variable {x y z : Fifo}

theorem refl (x : Fifo) : x.EvolvesTo x := ⟨rfl, id, id, id⟩

theorem trans (h : x.EvolvesTo y) (h' : y.EvolvesTo z) : x.EvolvesTo z where
  depth           := h'.depth.trans h.depth
  closed hx       := h'.closed (h.closed hx)
  consumerAlive hz := h.consumerAlive (h'.consumerAlive hz)
  bound hx        := h'.bound (h.bound hx)

theorem close (x : Fifo) : x.EvolvesTo x.close := { refl x with closed := fun _ => rfl }

theorem abandon (x : Fifo) : x.EvolvesTo x.abandon := { refl x with consumerAlive := nofun }

theorem pop (x : Fifo) : x.EvolvesTo x.pop := { refl x with
  bound := fun hx => by
    rw [pop_q, List.length_tail, pop_depth]
    omega }

theorem push (hroom : x.full = false) (v : Int) : x.EvolvesTo (x.push v) := { refl x with
  bound := fun _ => by
    rw [push_q, List.length_append, push_depth]
    exact not_full_iff.mp hroom }

/-- A FIFO with both ends at one core is as either end left it (log entry 11). -/
theorem mergeEnds {i o : Fifo} (hi : x.EvolvesTo i) (ho : x.EvolvesTo o) : x.EvolvesTo (Network.mergeEnds x i o) where
  depth         := rfl
  closed        := ho.closed
  consumerAlive := hi.consumerAlive
  bound hx := by
    have hbi : i.q.length ≤ x.depth := hi.depth ▸ hi.bound hx
    have hbo : o.q.length ≤ x.depth := ho.depth ▸ ho.bound hx
    simp only [Network.mergeEnds]
    split
    · exact hbo
    · exact hbi

end Fifo.EvolvesTo

/-- What an instruction does to the two FIFOs: nothing, the closure of rule R159, a pop, or a push where there is room. -/
theorem exec_fifos {i : Instr} {s t : State} (h : exec i s = .next t) :
    (t.inp = s.inp ∧ t.out = s.out) ∨ (t.inp = s.inp.abandon ∧ t.out = s.out.close) ∨
    (t.inp = s.inp.pop ∧ t.out = s.out) ∨ (s.out.full = false ∧ t.inp = s.inp ∧ ∃ v, t.out = s.out.push v) := by
  rcases exec_cases h with ⟨e, rfl⟩ | ⟨_, _, -, -, -, rfl⟩ | ⟨_, _, _, -, -, -, rfl⟩ | ⟨_, _, -, rfl⟩ |
    ⟨_, _, _, _, -, -, -, rfl⟩ | ⟨_, -, -, -, rfl⟩ | ⟨_, -, -, -, rfl⟩ | ⟨_, _, -, -, -, rfl⟩ |
    ⟨_, v, -, -, -, hroom, rfl⟩ | ⟨_, -, -, -, rfl⟩ | ⟨_, _, _, -, -, -, rfl⟩ | ⟨-, rfl⟩
  · exact .inr (.inl ⟨rfl, rfl⟩)
  · exact .inl ⟨rfl, rfl⟩
  · exact .inl ⟨rfl, rfl⟩
  · exact .inl ⟨rfl, rfl⟩
  · exact .inr (.inr (.inl ⟨rfl, rfl⟩))
  · exact .inr (.inl ⟨rfl, rfl⟩)
  · exact .inl ⟨rfl, rfl⟩
  · exact .inl ⟨rfl, rfl⟩
  · exact .inr (.inr (.inr ⟨hroom, rfl, v, rfl⟩))
  · exact .inl ⟨rfl, rfl⟩
  · exact .inl ⟨rfl, rfl⟩
  · exact .inr (.inl ⟨rfl, rfl⟩)

theorem exec_evolves {i : Instr} {s t : State} (h : exec i s = .next t) :
    s.inp.EvolvesTo t.inp ∧ s.out.EvolvesTo t.out := by
  rcases exec_fifos h with ⟨hi, ho⟩ | ⟨hi, ho⟩ | ⟨hi, ho⟩ | ⟨hroom, hi, v, ho⟩ <;> rw [hi, ho]
  · exact ⟨.refl _, .refl _⟩
  · exact ⟨.abandon _, .close _⟩
  · exact ⟨.pop _, .refl _⟩
  · exact ⟨.refl _, .push hroom v⟩

theorem step_evolves {s t : State} (h : step s = .next t) : s.inp.EvolvesTo t.inp ∧ s.out.EvolvesTo t.out := by
  rcases step_cases h with ⟨-, rfl⟩ | ⟨-, e, -, rfl⟩ | ⟨-, i, -, hexec⟩
  · exact ⟨.refl _, .refl _⟩
  · exact ⟨.abandon _, .close _⟩
  · exact exec_evolves (s := s.beginStep) hexec

/-! ## The FIFOs of a network -/

/-- Every FIFO of `xs` is still there in `ys`, at the same index, as the same FIFO later. -/
def FifosEvolve (xs ys : List Fifo) : Prop := ∀ (j : Nat) (x : Fifo), xs[j]? = some x → ∃ y, ys[j]? = some y ∧ x.EvolvesTo y

namespace FifosEvolve

theorem refl (xs : List Fifo) : FifosEvolve xs xs := fun _ x hx => ⟨x, hx, .refl x⟩

theorem trans {xs ys zs : List Fifo} (h : FifosEvolve xs ys) (h' : FifosEvolve ys zs) : FifosEvolve xs zs := by
  intro j x hx
  obtain ⟨y, hy, hxy⟩ := h j x hx
  obtain ⟨z, hz, hyz⟩ := h' j y hy
  exact ⟨z, hz, hxy.trans hyz⟩

theorem set {xs : List Fifo} {i : Nat} {x y : Fifo} (hx : xs[i]? = some x) (h : x.EvolvesTo y) :
    FifosEvolve xs (xs.set i y) := by
  intro j z hz
  by_cases hij : i = j
  · subst hij
    obtain rfl : x = z := Option.some.inj (hx.symm.trans hz)
    exact ⟨y, List.getElem?_set_self (List.getElem?_eq_some_iff.mp hx).1, h⟩
  · exact ⟨z, by rw [List.getElem?_set_ne hij, hz], .refl z⟩

theorem append (xs ys : List Fifo) : FifosEvolve xs (xs ++ ys) := fun _ x hx =>
  ⟨x, List.getElem?_append_left (List.getElem?_eq_some_iff.mp hx).1 ▸ hx, .refl x⟩

end FifosEvolve

namespace Network

variable {n m : Network}

theorem view_eq_some {d : Node} {s : State} (h : n.view d = some s) :
    n.fifos[d.inIdx]? = some s.inp ∧ n.fifos[d.outIdx]? = some s.out := by
  unfold view at h
  split at h
  next fi fo hi ho =>
    obtain rfl := Option.some.inj h
    exact ⟨hi, ho⟩
  next => cases h

/-- A core's step in a network: the machine's step of its view, written back. -/
theorem coreStep_eq_some {k : Nat} (h : n.coreStep k = some m) :
    ∃ d s t, n.nodes[k]? = some d ∧ n.view d = some s ∧ s.rs.terminal = false ∧ Machine.step s = .next t ∧
      m = { n with nodes := n.nodes.set k { d with core := t }, fifos := n.writeBack d s t } := by
  unfold coreStep at h
  split at h
  · cases h
  next d hd =>
    split at h
    · cases h
    next s hs =>
      split at h
      · cases h
      next hlive =>
        obtain ⟨t, ht⟩ := step_answers s
        simp only [ht] at h
        exact ⟨d, s, t, hd, hs, by simpa using hlive, ht, (Option.some.inj h).symm⟩

theorem fifoStep_eq_some {f : Nat} {allowed : Fifo → Bool} {act : Fifo → Fifo} (h : n.fifoStep f allowed act = some m) :
    ∃ x, n.fifos[f]? = some x ∧ allowed x = true ∧ m = { n with fifos := n.fifos.set f (act x) } := by
  unfold fifoStep at h
  split at h
  · cases h
  next x hx =>
    split at h
    next hallowed => exact ⟨x, hx, hallowed, (Option.some.inj h).symm⟩
    next => cases h

/-- A reset with load leaves every FIFO as it is (log entry 20). -/
theorem load_fifos {k : Nat} {image : List Int} {extent i o : Nat} (h : n.load k image extent i o = some m) :
    m.fifos = n.fifos := by
  unfold load at h
  split at h
  · dsimp only at h
    split at h
    · obtain rfl := Option.some.inj h
      rfl
    · cases h
  · cases h

theorem connect_fifos {f : Fifo} (h : n.connect f = some m) : m.fifos = n.fifos ++ [f] := by
  unfold connect at h
  split at h
  · obtain rfl := Option.some.inj h
    rfl
  · cases h

theorem writeBack_evolves {d : Node} {s t : State} (hs : n.view d = some s) (ht : Machine.step s = .next t) :
    FifosEvolve n.fifos (n.writeBack d s t) := by
  obtain ⟨hin, hout⟩ := view_eq_some hs
  obtain ⟨hinp, houtp⟩ := step_evolves ht
  unfold writeBack
  split
  next hloop =>
    have hsame : s.out = s.inp := Option.some.inj (hout.symm.trans (hloop ▸ hin))
    exact .set hin (hinp.mergeEnds (hsame ▸ houtp))
  next hne =>
    have hout' : (n.fifos.set d.inIdx t.inp)[d.outIdx]? = some s.out := by rw [List.getElem?_set_ne hne, hout]
    exact (FifosEvolve.set hin hinp).trans (.set hout' houtp)

theorem fifoStep_evolves {f : Nat} {allowed : Fifo → Bool} {act : Fifo → Fifo}
    (hact : ∀ x, allowed x = true → x.EvolvesTo (act x)) (h : n.fifoStep f allowed act = some m) :
    FifosEvolve n.fifos m.fifos := by
  obtain ⟨x, hx, hallowed, rfl⟩ := fifoStep_eq_some h
  exact .set hx (hact x hallowed)

/-- An action of the environment is a `fifoStep`, on an end that no core holds. -/
theorem fifoStep_of_free {held : Bool} {r : Option Network} (h : (if held then none else r) = some m) : r = some m := by
  cases held with
  | false => exact h
  | true => cases h

theorem step_evolves {a : Action} (h : n.step a = some m) : FifosEvolve n.fifos m.fifos := by
  cases a with
  | core k =>
    obtain ⟨d, s, t, -, hs, -, ht, rfl⟩ := coreStep_eq_some h
    exact writeBack_evolves hs ht
  | push f v =>
    refine fifoStep_evolves (fun x hx => .push ?_ v) (fifoStep_of_free h)
    simp only [Fifo.canPush, Bool.and_eq_true, Bool.not_eq_true'] at hx
    obtain ⟨⟨hroom, -⟩, -⟩ := hx
    exact hroom
  | close f => exact fifoStep_evolves (fun x _ => .close x) (fifoStep_of_free h)
  | pop f => exact fifoStep_evolves (fun x _ => .pop x) (fifoStep_of_free h)
  | abandon f => exact fifoStep_evolves (fun x _ => .abandon x) (fifoStep_of_free h)

end Network

/-- Settles O53: an agent's step takes each FIFO to a later one, a connection adds one at the end and a load touches none. -/
theorem fifoFlagsNeverReturn : Obligations.FifoFlagsNeverReturn := by
  intro n m h j x hx
  have hevolve : FifosEvolve n.fifos m.fifos := by
    rcases h with ⟨a, ha⟩ | ⟨f, hf⟩ | ⟨k, image, extent, i, o, hload⟩
    · exact Network.step_evolves ha
    · exact Network.connect_fifos hf ▸ .append n.fifos [f]
    · exact Network.load_fifos hload ▸ .refl n.fifos
  obtain ⟨y, hy, hdepth, hclosed, halive, hbound⟩ := hevolve j x hx
  exact ⟨y, hy, hdepth, hclosed, halive, hbound⟩

end Sys2Proof.Machine

namespace Sys2Proof

/-- The canonical cells of format `RR`: the mode digits stand above the opcode, the raw values follow (rule R109). -/
theorem encode_of_operands_RR {i : Instr} {a b : Param} (h : i.operands = [(.read, a), (.read, b)]) :
    encode i = [((i.opcode + 100 * a.mode.digit + 1000 * b.mode.digit : Nat) : Int), a.raw, b.raw] := by
  have hword : i.word = i.opcode + 100 * a.mode.digit + 1000 * b.mode.digit := by
    simp only [Instr.word, h, List.map_cons, List.map_nil, modeDigits]
    omega
  simp only [encode, hword, h, List.map_cons, List.map_nil]

end Sys2Proof

namespace Sys2Proof.Machine

/-! ## `JT` and `JF` -/

section ResolvedRR

variable {taken : Int → Bool} {a b : Param} {s : State} {x y : Int} (hx : s.readOperand 1 a = .ok x)
include hx

/-- The target is resolved before the condition is tested (rules R103 and R104). -/
theorem execJump_of_target_error {e : Raise} (he : s.readOperand 2 b = .error e) :
    execJump taken a b s = .next (s.raise e) := by
  rw [execJump, hx, bind_ok, he, bind_error, settle_error]

variable (hy : s.readOperand 2 b = .ok y)
include hy

/-- A taken jump goes to its target exactly (rule R182). -/
theorem execJump_of_taken (htaken : taken x = true) (htarget : 0 ≤ y) :
    execJump taken a b s = .next (s.jumpTo y.toNat) := by
  rw [execJump, hx, bind_ok, hy, bind_ok, if_pos htaken, if_neg (Int.not_lt.mpr htarget), pure_eq_ok, State.settle]

/-- A taken jump raises on a negative target (rule R182). -/
theorem execJump_of_taken_of_neg (htaken : taken x = true) (htarget : y < 0) :
    execJump taken a b s = .next (s.raise ⟨.negativeJumpTarget, 2, y⟩) := by
  rw [execJump, hx, bind_ok, hy, bind_ok, if_pos htaken, if_pos htarget, settle_error]

/-- A jump that is not taken retires, whatever its target (rules R180 and R181). -/
theorem execJump_of_not_taken (htaken : taken x = false) : execJump taken a b s = .next (s.retire 3) := by
  rw [execJump, hx, bind_ok, hy, bind_ok, if_neg (ne_true_of_eq_false htaken), pure_eq_ok, State.settle]

end ResolvedRR

/-- Settles O17: the answers of a conditional jump that is taken when its condition is not 0. -/
theorem jtJumpsWhenNonzero : Obligations.JtJumpsWhenNonzero := fun _ _ =>
  ⟨encode_of_operands_RR rfl, fun _ _ _ hx he => execJump_of_target_error hx he, fun _ _ _ hx hy =>
    ⟨fun hne => execJump_of_taken hx hy (decide_eq_true hne),
      fun hne => execJump_of_taken_of_neg hx hy (decide_eq_true hne),
      fun hzero => execJump_of_not_taken hx hy (decide_eq_false (not_not_intro hzero))⟩⟩

/-- Settles O18: the answers of a conditional jump that is taken when its condition is 0. -/
theorem jfJumpsWhenZero : Obligations.JfJumpsWhenZero := fun _ _ =>
  ⟨encode_of_operands_RR rfl, fun _ _ _ hx he => execJump_of_target_error hx he, fun _ _ _ hx hy =>
    ⟨fun hzero => execJump_of_taken hx hy (decide_eq_true hzero),
      fun hzero => execJump_of_taken_of_neg hx hy (decide_eq_true hzero),
      fun hne => execJump_of_not_taken hx hy (decide_eq_false hne)⟩⟩

end Sys2Proof.Machine

namespace Sys2Proof.Machine

/-! ## `LT` and `EQ` -/

theorem truthWord_decide_of_true {p : Prop} [Decidable p] (h : p) : truthWord (decide p) = 1 := if_pos (decide_eq_true h)

theorem truthWord_decide_of_false {p : Prop} [Decidable p] (h : ¬ p) : truthWord (decide p) = 0 :=
  if_neg (ne_true_of_eq_false (decide_eq_false h))

/-- A comparison `p` of two resolved words raises nothing: 1 is written where it holds and 0 where it does not (rules R190
and R191). -/
theorem execRRD_truthWord {op : Int → Int → Except Raise Int} {a b d : Param} {s : State} {x y : Int} {dst : Nat}
    {p : Prop} [Decidable p] (hx : s.readOperand 1 a = .ok x) (hy : s.readOperand 2 b = .ok y)
    (hd : s.destAddress 3 d = .ok dst) (ho : op x y = .ok (truthWord (decide p))) :
    (p → execRRD op a b d s = .next ((s.memWrite dst 1).retire 4)) ∧
    (¬ p → execRRD op a b d s = .next ((s.memWrite dst 0).retire 4)) := by
  refine ⟨fun hp => ?_, fun hp => ?_⟩
  · exact execRRD_of_ok hx hy hd (by rw [ho, truthWord_decide_of_true hp])
  · exact execRRD_of_ok hx hy hd (by rw [ho, truthWord_decide_of_false hp])

/-- Settles O13: the comparison is `x < y`, and its negation is `y ≤ x`. -/
theorem ltWritesComparison : Obligations.LtWritesComparison := by
  refine fun a b d => ⟨encode_of_operands_RRD rfl, fun s x y dst hx hy hd => ?_⟩
  obtain ⟨hone, hzero⟩ := execRRD_truthWord (op := fun x y => .ok (lessThan x y)) (p := x < y) hx hy hd rfl
  exact ⟨hone, fun hle => hzero (Int.not_lt.mpr hle)⟩

/-- Settles O14: the comparison is `x = y`. -/
theorem eqWritesComparison : Obligations.EqWritesComparison := fun _ _ _ =>
  ⟨encode_of_operands_RRD rfl, fun _ x y _ hx hy hd =>
    execRRD_truthWord (op := fun x y => .ok (equals x y)) (p := x = y) hx hy hd rfl⟩

end Sys2Proof.Machine

namespace Sys2Proof

/-- Every word with the low digits 99 is `HLT`, and no digit above them nor any cell after it is looked at (rule R93). -/
theorem decodeWord_hlt {w : Nat} (hop : opcodeOf w = 99) (rest : List Int) : decodeWord w rest = .ok .hlt := by
  simp only [decodeWord, hop]

end Sys2Proof

namespace Sys2Proof.Machine

/-! ## `ARB` and `HLT` -/

section ResolvedArb

variable {a : Param} {s : State} {x : Int} (hx : s.readOperand 1 a = .ok x)
include hx

/-- `ARB` retires with the narrowed sum as its relative base (rule R200). -/
theorem exec_arb_of_narrow_some {r : Int} (hr : narrow s.cfg (s.rb + x) = some r) :
    exec (.arb a) s = .next ({ s with rb := r }.retire 2) := by
  rw [exec, execArb, hx, bind_ok, addW, hr, orOverflow, bind_ok, pure_eq_ok, State.settle]

/-- `ARB` faults where its sum does not narrow (rules R200 and R309). -/
theorem exec_arb_of_narrow_none (hr : narrow s.cfg (s.rb + x) = none) :
    exec (.arb a) s = .next (s.raise ⟨.arithOverflow, 0, 9⟩) := by
  rw [exec, execArb, hx, bind_ok, addW, hr, orOverflow, bind_error, settle_error]

end ResolvedArb

/-- Settles O19: every instruction but `ARB` keeps `rb`, and `ARB` answers by what its exact sum narrows to. -/
theorem arbAdjustsRelativeBase : Obligations.ArbAdjustsRelativeBase :=
  ⟨fun _ _ _ hne hexec => exec_rb hexec hne, fun _ => ⟨encode_of_operands_single rfl, fun _ _ hx =>
    ⟨fun hwrap => exec_arb_of_narrow_some hx (narrow_wrap hwrap _),
      fun hfault hword => exec_arb_of_narrow_some hx (narrow_fits hfault hword),
      fun hfault hword => exec_arb_of_narrow_none hx (narrow_overflow hfault hword)⟩⟩⟩

/-- Settles O20: the opcode alone selects `HLT`, and `HLT` ends the run by `State.terminate`. -/
theorem hltHalts : Obligations.HltHalts := by
  refine ⟨rfl, fun w rest hw hop => ?_, fun s => rfl⟩
  lift w to Nat using hw
  norm_cast at hop
  rw [decode_cons_of_nonneg (Int.natCast_nonneg w), Int.toNat_natCast, decodeWord_hlt hop]

end Sys2Proof.Machine

namespace Sys2Proof.Machine

/-! ## The environment and the rest of a core -/

/-- Settles O44: each action is one operation on one FIFO, which keeps it legal and leaves the core's own flags as they are. -/
theorem environmentTouchesOnlyFifos : Obligations.EnvironmentTouchesOnlyFifos := by
  intro s t e h
  cases e with
  | push v =>
    obtain ⟨hallowed, rfl⟩ := State.env_push_eq_some.mp h
    simp only [Fifo.canPush, Bool.and_eq_true, Bool.not_eq_true'] at hallowed
    obtain ⟨⟨hroom, -⟩, hword⟩ := hallowed
    exact ⟨rfl, fun hinv => { hinv with inpLegal := Fifo.legal_push hinv.inpLegal hroom hword }⟩
  | close =>
    obtain rfl := Option.some.inj h
    exact ⟨rfl, fun hinv => { hinv with }⟩
  | pop =>
    obtain ⟨-, rfl⟩ := State.env_pop_eq_some.mp h
    exact ⟨rfl, fun hinv => { hinv with outLegal := Fifo.legal_pop hinv.outLegal }⟩
  | abandon =>
    obtain rfl := Option.some.inj h
    exact ⟨rfl, fun hinv => { hinv with dropOnlyByOut := fun hdrop => (hinv.dropOnlyByOut hdrop).imp_right fun _ => rfl }⟩

/-! ## The step of a live core, settled from its checks and its execute rule -/

namespace Reference

theorem step_eq_settle {s : State} (hlive : s.rs.terminal = false) :
    step s = s.beginStep.settle (guarded (checks s.beginStep) (effect s.beginStep)) :=
  (stepIsTheFlatControllerStep s).trans (stepState_of_live hlive)

theorem guarded_eq_error {α β : Type} {cs : List (Option Raise)} {v : α} {e : Raise} (h : guarded cs v = .error e) (w : β) :
    guarded cs w = .error e := by
  cases hcs : cs.findSome? id <;> simp [guarded, hcs] at h ⊢
  exact h

end Reference

/-! ## `ArithOverflow` -/

namespace Reference

variable {s : State}

/-- A check that, if it fails, raises something else than `ArithOverflow`. -/
def RaisesOther (c : Option Raise) : Prop := ∀ e, c = some e → e.cause ≠ .arithOverflow

theorem RaisesOther.ofCause {k : Cause} (h : k ≠ .arithOverflow) {fails : Bool} {i : Fin 4} {v : Int} :
    RaisesOther (check fails ⟨k, i, v⟩) := by
  cases fails with
  | false => nofun
  | true =>
    rintro e ⟨⟩
    exact h

theorem RaisesOther.ofPass {fails : Bool} (h : fails = false) {r : Raise} : RaisesOther (check fails r) := by
  rw [h]
  nofun

section Wrap

variable (hwrap : s.cfg.overflowMode = .wrap)
include hwrap

theorem overflows_of_wrap (x : Int) : overflows s x = false := by simp [overflows, hwrap]

/-- Where overflow wraps, the checks for it pass, and no other raises `ArithOverflow` (rules R309 and R310). -/
theorem checks_raiseOther : ∀ c ∈ checks s, RaisesOther c := by
  have hover : ∀ {b : Bool} {x : Int} {r : Raise}, RaisesOther (check (b && overflows s x) r) :=
    .ofPass (by rw [overflows_of_wrap hwrap, Bool.and_false])
  have hfetch : ∀ c ∈ fetchChecks s, RaisesOther c := by
    simp only [fetchChecks, List.forall_mem_cons]
    exact ⟨.ofCause (by decide), .ofCause (by decide), .ofCause (by decide), .ofCause (by decide), nofun⟩
  have hdecode : ∀ i, ∀ c ∈ decodeChecks s i, RaisesOther c := by
    simp only [decodeChecks, List.forall_mem_cons]
    exact fun i => ⟨.ofCause (by decide), .ofCause (by decide), .ofCause (by decide), nofun⟩
  have hresolve : ∀ i, ∀ c ∈ resolveChecks s i, RaisesOther c := by
    simp only [resolveChecks, List.forall_mem_cons]
    exact fun i => ⟨hover, .ofCause (by decide), .ofCause (by decide), nofun⟩
  have hexecute : ∀ c ∈ executeChecks s, RaisesOther c := by
    simp only [executeChecks, List.forall_mem_cons]
    exact ⟨hover, hover, hover, .ofCause (by decide), nofun⟩
  intro c hc
  rw [checks, ← fetchChecks] at hc
  simp only [List.mem_append, List.mem_flatMap] at hc
  rcases hc with ((hc | ⟨i, -, hc⟩) | ⟨i, -, hc⟩) | hc
  · exact hfetch c hc
  · exact hdecode i c hc
  · exact hresolve i c hc
  · exact hexecute c hc

theorem guarded_checks_cause {α : Type} {v : α} {e : Raise} (h : guarded (checks s) v = .error e) :
    e.cause ≠ .arithOverflow := by
  cases hfail : (checks s).findSome? id with
  | none => simp [guarded, hfail] at h
  | some r =>
    obtain rfl : r = e := by simpa [guarded, hfail] using h
    obtain ⟨c, hc, hraise⟩ := List.exists_of_findSome?_eq_some hfail
    exact checks_raiseOther hwrap c hc r hraise

end Wrap

theorem effect_cause : (effect s).cause = s.cause := by
  unfold effect
  dsimp only
  repeat' split
  all_goals rfl

end Reference

/-- Settles O30: the exact results do not narrow, and where overflow wraps a fault is raised by another check. -/
theorem arithOverflowOnlyInFaultMode : Obligations.ArithOverflowOnlyInFaultMode := by
  refine ⟨fun a b d s x y dst hm hx hy hd => ⟨fun hz => ?_, fun hz => ?_⟩, fun a s x hm hx hz => ?_,
    fun s i r hm hz => ⟨?_, ?_⟩, fun s t hm hcause h => ?_⟩
  · exact execRRD_of_error hx hy hd (by rw [addW, narrow_overflow hm hz, orOverflow])
  · exact execRRD_of_error hx hy hd (by rw [mulW, narrow_overflow hm hz, orOverflow])
  · exact exec_arb_of_narrow_none hx (narrow_overflow hm hz)
  · rw [State.readOperand, State.relativeAddress_of_overflow hm hz, bind_error]
  · rw [State.destAddress, State.relativeAddress_of_overflow hm hz, bind_error]
  · cases hlive : s.rs.terminal with
    | true =>
      obtain rfl := Host.Outcome.next.inj ((step_of_terminal hlive).symm.trans h)
      exact hcause
    | false =>
      rw [Reference.step_eq_settle hlive] at h
      rcases settle_eq_next h with ⟨e, he, rfl⟩ | hok
      · exact fun hraised => Reference.guarded_checks_cause hm he (Option.some.inj hraised)
      · obtain ⟨-, rfl⟩ := Reference.eq_of_guarded_eq_ok hok
        rwa [Reference.effect_cause]

/-! ## A core alone: what it pops is queued, and nothing makes it wait -/

/-- A view keeps of the run state whether the run has ended. -/
@[simp] theorem State.coreView_terminal (s : State) : s.coreView.rs.terminal = s.rs.terminal := by
  simp only [coreView]
  cases s.rs <;> rfl

/-- A wait is viewed as running. -/
theorem State.coreView_of_live {s : State} (h : s.rs.terminal = false) :
    s.coreView = { s with inp := Fifo.fresh 1, out := Fifo.fresh 1, outDrop := none, rs := .running } := by
  have hrs : (if s.rs.waiting then RunState.running else s.rs) = .running := by
    cases hs : s.rs <;> simp_all [RunState.terminal, RunState.waiting]
  rw [coreView, hrs]

/-- The core of the view `c` with the values `ps` queued and its input closed behind them; a view's output is empty and open, so
that no step of it waits. -/
def State.alone (c : State) (ps : List Int) : State :=
  { c with inp := { Fifo.fresh 1 with q := ps, closed := true } }

/-- A step that moves no value is observed as nothing. -/
theorem observeStep_of_quiet {s t : State} (hinp : t.inp.q = s.inp.q) (hout : t.out.q = s.out.q) (hdrop : t.outDrop = none) :
    observeStep s t = Trace.empty := by
  simp [observeStep, hinp, hout, hdrop, Trace.empty]

/-- The core alone ends its step in `u` as another core of its view does in `t`, with `rest` still queued and `ys` given out. -/
structure Alike (t : State) (rest ys : List Int) (u : State) : Prop where
  view    : u.coreView = t.coreView
  left    : u.inp.q = rest
  emitted : u.out.q = ys

namespace Reference

variable {s : State}

/-! ### The execute rules that use a FIFO -/

theorem effect_of_input_cons (h : op s = 3) {v : Int} {q : List Int} (hq : s.inp.q = v :: q) :
    effect s = ({ s with inp := { s.inp with q := q } }.memWrite (ea s 1).toNat v).retire 2 := by
  simp [effect, h, hq, next, State.retire]

theorem effect_of_input_nil (h : op s = 3) (hq : s.inp.q = []) :
    effect s = if s.inp.closed then s.terminate .inputEnded else s.wait .waitIn := by
  simp [effect, h, hq, State.terminate, State.wait, Fifo.close, Fifo.abandon]

theorem effect_of_output (h : op s = 4) :
    effect s =
      if s.out.consumerAlive = false then { s with outDrop := some (val s 1) }.retire 2
      else if s.out.q.length < s.out.depth then { s with out := s.out.push (val s 1) }.retire 2
      else s.wait .waitOut := by
  simp [effect, h, next, State.retire, State.wait, Fifo.push]

/-- Every other execute rule moves no value. -/
theorem effect_keeps_ports (hin : op s ≠ 3) (hout : op s ≠ 4) :
    (effect s).inp.q = s.inp.q ∧ (effect s).out.q = s.out.q ∧ (effect s).outDrop = s.outDrop := by
  simp only [effect, if_neg hin, if_neg hout]
  split_ifs <;> exact ⟨rfl, rfl, rfl⟩

/-! ### Every execute rule, of the core alone -/

/-- The execute rule moves the values of `x`, and that of the core alone, with what is popped queued before any `rest`, reaches
the same view and moves the same. Nothing may be left where the run ends, or an `IN` that found no input would find some. -/
def MatchedAlone (s : State) (x : Trace) : Prop :=
  observeStep s (effect s) = x ∧ ∀ rest, ((effect s).rs.terminal = true → rest = []) →
    Alike (effect s) rest x.emitted (effect (s.coreView.alone (x.popped ++ rest)))

theorem matchedAlone_of_other (hdrop : s.outDrop = none) (hin : op s ≠ 3) (hout : op s ≠ 4) :
    ∃ x, MatchedAlone s x := by
  obtain ⟨hinp, houtq, hdropped⟩ := effect_keeps_ports hin hout
  refine ⟨_, observeStep_of_quiet hinp houtq (hdropped.trans hdrop), fun rest _ => ?_⟩
  have hin' : op (s.coreView.alone rest) ≠ 3 := hin
  have hout' : op (s.coreView.alone rest) ≠ 4 := hout
  have hview : (effect (s.coreView.alone rest)).coreView = (effect s).coreView := by
    simp only [effect, if_neg hin, if_neg hout, if_neg hin', if_neg hout', apply_ite State.coreView]
    rfl
  obtain ⟨hleft, hemitted, -⟩ := effect_keeps_ports hin' hout'
  exact ⟨hview, hleft, hemitted⟩

section MidStep

variable (hlive : s.rs.terminal = false) (hdrop : s.outDrop = none)
include hlive hdrop

theorem matchedAlone_of_input (h : op s = 3) (hgo : (effect s).rs.waiting = false) : ∃ x, MatchedAlone s x := by
  cases hq : s.inp.q with
  | cons v q =>
    simp only [MatchedAlone, effect_of_input_cons h hq]
    refine ⟨{ Trace.empty with popped := [v] }, by simp [observeStep, hlive, hq, hdrop, Trace.empty], fun rest _ => ?_⟩
    have halone := effect_of_input_cons (s := s.coreView.alone (v :: rest)) h rfl
    exact ⟨(congrArg State.coreView halone).trans rfl, congrArg (·.inp.q) halone, congrArg (·.out.q) halone⟩
  | nil =>
    cases hclosed : s.inp.closed with
    | false => simp [effect_of_input_nil h hq, hclosed, RunState.waiting] at hgo
    | true =>
      simp only [MatchedAlone, effect_of_input_nil h hq, hclosed, if_true]
      refine ⟨Trace.empty, observeStep_of_quiet rfl rfl hdrop, fun rest hrest => ?_⟩
      obtain rfl : rest = [] := hrest rfl
      have halone := effect_of_input_nil (s := s.coreView.alone []) h rfl
      exact ⟨(congrArg State.coreView halone).trans rfl, congrArg (·.inp.q) halone, congrArg (·.out.q) halone⟩

theorem matchedAlone_of_output (h : op s = 4) (hgo : (effect s).rs.waiting = false) : ∃ x, MatchedAlone s x := by
  have hmoves : observeStep s (effect s) = { Trace.empty with emitted := [val s 1] } ∧
      (effect s).coreView = (s.retire 2).coreView := by
    rw [effect_of_output h] at hgo ⊢
    split_ifs at hgo ⊢
    · exact ⟨by simp [observeStep, hlive, Trace.empty], rfl⟩
    · exact ⟨by simp [observeStep, hlive, hdrop, Trace.empty], rfl⟩
    · cases hgo
  obtain ⟨hobs, hview⟩ := hmoves
  refine ⟨_, hobs, fun rest _ => ?_⟩
  have halone := effect_of_output (s := s.coreView.alone rest) h
  exact ⟨(congrArg State.coreView halone).trans hview.symm, congrArg (·.inp.q) halone, congrArg (·.out.q) halone⟩

theorem effect_matchedAlone (hgo : (effect s).rs.waiting = false) : ∃ x, MatchedAlone s x := by
  by_cases hin : op s = 3
  · exact matchedAlone_of_input hlive hdrop hin hgo
  · by_cases hout : op s = 4
    · exact matchedAlone_of_output hlive hdrop hout hgo
    · exact matchedAlone_of_other hdrop hin hout

end MidStep

end Reference

/-- A step that does not wait is a step of the core alone, with what it pops queued before any `rest`. -/
theorem step_alone {s t : State} (hlive : s.rs.terminal = false) (h : step s = .next t) (hgo : t.rs.waiting = false)
    {rest : List Int} (hrest : t.rs.terminal = true → rest = []) :
    ∃ u, step (s.coreView.alone ((observeStep s t).popped ++ rest)) = .next u ∧
      Alike t rest (observeStep s t).emitted u := by
  have halone : ∀ ps, step (s.coreView.alone ps) = (s.coreView.alone ps).beginStep.settle
      (Reference.guarded (Reference.checks s.beginStep) (Reference.effect (s.beginStep.coreView.alone ps))) := fun ps =>
    Reference.step_eq_settle (s := s.coreView.alone ps) ((State.coreView_terminal s).trans hlive)
  rw [Reference.step_eq_settle hlive] at h
  rcases settle_eq_next h with ⟨e, he, rfl⟩ | hok
  · have hobs : observeStep s (s.beginStep.raise e) = Trace.empty := observeStep_of_quiet rfl rfl rfl
    refine ⟨_, by rw [hobs, halone, Reference.guarded_eq_error he]; rfl, ?_⟩
    rw [hobs]
    exact ⟨rfl, rfl, rfl⟩
  · obtain ⟨hpass, rfl⟩ := Reference.eq_of_guarded_eq_ok hok
    obtain ⟨_, rfl, halike⟩ := Reference.effect_matchedAlone (s := s.beginStep) hlive rfl hgo
    exact ⟨_, by rw [halone, Reference.guarded_of_pass hpass]; rfl, halike rest hrest⟩

/-! ## A run to its end, as the core alone plays it -/

/-- The core of the view `c` alone, with the values `ps` queued, gives out `es` and ends in the view `d`, all of them popped. -/
inductive Plays : State → List Int → List Int → State → Prop
  | ended {c : State} : c.rs.terminal = true → Plays c [] [] c
  | step {c u d : State} {ps es : List Int} : c.rs.terminal = false → Machine.step (c.alone ps) = .next u →
      Plays u.coreView u.inp.q es d → Plays c ps (u.out.q ++ es) d

namespace Plays

variable {c d d' : State} {ps es es' : List Int}

theorem nil_of_terminal (h : Plays c ps es d) (hend : c.rs.terminal = true) : ps = [] := by
  cases h with
  | ended _ => rfl
  | step hlive => cases hend.symm.trans hlive

/-- The core alone is a function of its view and of the values queued. -/
theorem unique (h : Plays c ps es d) (h' : Plays c ps es' d') : es = es' ∧ d = d' := by
  induction h generalizing es' with
  | ended hend =>
    cases h' with
    | ended _ => exact ⟨rfl, rfl⟩
    | step hlive => cases hend.symm.trans hlive
  | step hlive hstep _ ih =>
    cases h' with
    | ended hend => cases hend.symm.trans hlive
    | step _ hstep' hrest' =>
      obtain rfl := Host.Outcome.next.inj (hstep.symm.trans hstep')
      obtain ⟨rfl, rfl⟩ := ih hrest'
      exact ⟨rfl, rfl⟩

/-- Before a run played alone, a step of the core: one that does not wait is played first, and a wait or a step of an ended run
changes no view and moves nothing. -/
theorem ofStep {s t : State} (h : Machine.step s = .next t) (hplays : Plays t.coreView ps es d) :
    Plays s.coreView ((observeStep s t).popped ++ ps) ((observeStep s t).emitted ++ es) d := by
  cases hlive : s.rs.terminal with
  | true =>
    obtain rfl := Host.Outcome.next.inj ((step_of_terminal hlive).symm.trans h)
    rwa [observeStep, if_pos hlive]
  | false =>
    cases hgo : t.rs.waiting with
    | true =>
      obtain ⟨hsame, -⟩ := waitChangesOnlyRunState s t hlive h hgo
      have hview : t.coreView = s.coreView := by
        rw [State.coreView_of_live hlive, hsame, State.coreView, hgo]
        rfl
      have hobs : observeStep s t = Trace.empty := by
        rw [hsame]
        exact observeStep_of_quiet rfl rfl rfl
      rw [hobs, ← hview]
      exact hplays
    | false =>
      have hrest : t.rs.terminal = true → ps = [] := fun hend =>
        hplays.nil_of_terminal ((State.coreView_terminal t).trans hend)
      obtain ⟨u, hu, hview, rfl, hemitted⟩ := step_alone hlive h hgo hrest
      rw [← hemitted]
      exact .step ((State.coreView_terminal s).trans hlive) hu (hview ▸ hplays)

/-- Before a run played alone, an action of the environment: the core does not see it. -/
theorem ofEnv {s t : State} {e : EnvEvent} (h : s.env e = some t) (hplays : Plays t.coreView ps es d) :
    Plays s.coreView ((observeEnv s e).popped ++ ps) ((observeEnv s e).emitted ++ es) d := by
  have hview : t.coreView = s.coreView := by
    obtain ⟨hfifos, -⟩ := environmentTouchesOnlyFifos s t e h
    rw [hfifos]
    rfl
  have hpopped : (observeEnv s e).popped = [] := by cases e <;> rfl
  have hemitted : (observeEnv s e).emitted = [] := by cases e <;> rfl
  rwa [hpopped, hemitted, ← hview]

theorem ofEvent {e : Event} {s t : State} {x : Trace} (h : eventStep e s = some (t, x)) (hplays : Plays t.coreView ps es d) :
    Plays s.coreView (x.popped ++ ps) (x.emitted ++ es) d := by
  cases e with
  | env e =>
    obtain ⟨u, hu, hx⟩ := Option.map_eq_some_iff.mp h
    obtain ⟨rfl, rfl⟩ := Prod.mk.inj hx
    exact ofEnv hu hplays
  | step =>
    obtain ⟨u, hu⟩ := step_answers s
    simp only [eventStep, hu] at h
    obtain ⟨rfl, rfl⟩ := Prod.mk.inj (Option.some.inj h)
    exact ofStep hu hplays

/-- Every run to a terminal state, whatever its schedule, is played by the core alone with what it pops queued. -/
theorem ofRun {evs : List Event} {t : State} (hend : t.rs.terminal = true) : ∀ {s : State} {tr : Trace},
    runEvents evs s = some (t, tr) → Plays s.coreView tr.popped tr.emitted t.coreView := by
  induction evs with
  | nil =>
    intro s tr h
    obtain ⟨rfl, rfl⟩ := Prod.mk.inj (Option.some.inj h)
    exact .ended ((State.coreView_terminal s).trans hend)
  | cons e evs ih =>
    intro s tr h
    obtain ⟨u, x, y, hx, hy, rfl⟩ := runEvents_cons_eq_some h
    exact ofEvent hx (ih hy)

end Plays

/-- Settles O50: both runs are the run of the one core alone with the one list of values queued. -/
theorem outputsAreDeterminedByPoppedInputs : Obligations.OutputsAreDeterminedByPoppedInputs := by
  intro es₁ es₂ s₁ s₂ t₁ t₂ tr₁ tr₂ hview hrun₁ hrun₂ hend₁ hend₂ hpopped
  have hplays₁ := Plays.ofRun hend₁ hrun₁
  have hplays₂ := Plays.ofRun hend₂ hrun₂
  rw [hview, hpopped] at hplays₁
  exact hplays₁.unique hplays₂

/-! ## What a step leaves alone in a network -/

namespace Network

variable {n m : Network}

section WriteBack

variable (n) (d : Node) (s t : State)

/-- A core's step writes back the FIFOs of the core's two ends only. -/
theorem writeBack_getElem?_of_ne {f : Nat} (hin : f ≠ d.inIdx) (hout : f ≠ d.outIdx) :
    (n.writeBack d s t)[f]? = n.fifos[f]? := by
  unfold writeBack
  split
  · rw [List.getElem?_set_ne hin.symm]
  · rw [List.getElem?_set_ne hout.symm, List.getElem?_set_ne hin.symm]

theorem writeBack_length : (n.writeBack d s t).length = n.fifos.length := by
  unfold writeBack
  split <;> simp only [List.length_set]

end WriteBack

theorem fifoStep_nodes {f : Nat} {allowed : Fifo → Bool} {act : Fifo → Fifo} (h : n.fifoStep f allowed act = some m) :
    m.nodes = n.nodes := by
  obtain ⟨x, -, -, rfl⟩ := fifoStep_eq_some h
  rfl

end Network

/-- Settles O51: a core's step sets one node and writes back its FIFOs, and every other action is a `fifoStep`. -/
theorem networkStepsAreLocal : Obligations.NetworkStepsAreLocal := by
  refine fun n m => ⟨fun k h => ?_, fun a hcore h => ?_⟩
  · obtain ⟨d, s, t, hd, -, -, -, rfl⟩ := Network.coreStep_eq_some h
    refine ⟨fun j hj => List.getElem?_set_ne hj.symm, fun d' f hd' hin hout => ?_, List.length_set,
      n.writeBack_length d s t⟩
    obtain rfl := Option.some.inj (hd.symm.trans hd')
    exact n.writeBack_getElem?_of_ne d s t hin hout
  · cases a with
    | core k => exact absurd rfl (hcore k)
    | push f v => exact Network.fifoStep_nodes (Network.fifoStep_of_free h)
    | close f => exact Network.fifoStep_nodes (Network.fifoStep_of_free h)
    | pop f => exact Network.fifoStep_nodes (Network.fifoStep_of_free h)
    | abandon f => exact Network.fifoStep_nodes (Network.fifoStep_of_free h)

end Sys2Proof.Machine
